-- ==== Sys2Proof/Word.lean ====
section
/-! DEFINITION. The word of this block: one byte (20_memory.md R48: every access moves exactly one byte). -/

namespace Sys2Proof

/-- One byte; bit 0 is its least-significant bit (00_scope.md R15). -/
abbrev Byte := BitVec 8

end Sys2Proof
end

