-- ==== Sys2Proof/Config.lean ====
section
/-! DEFINITION. The parameters of 00_scope.md section 4, what host memory reads as where nothing was written, and the
values the spec leaves unspecified. -/

namespace Sys2Proof

/-- The two variants V32 and V64 (00_scope.md R3, R8). Both are present in the block. -/
inductive Width where
  | w32
  | w64
  deriving DecidableEq, Repr, Inhabited

/-- The variant width W in bits (00_scope.md R8). -/
def Width.bits : Width → Nat
  | .w32 => 32
  | .w64 => 64

/-- MAXLEN(W), the byte budget (00_scope.md R9). -/
def Width.maxLen : Width → Nat
  | .w32 => 5
  | .w64 => 10

/-- What a byte of host memory that nothing has written reads as.
DESIGN CHOICE, unsafe: the spec says nothing of a host buffer's first contents (log entry 2). -/
def Config.unlistedByte : Byte := 0

/-- The unspecified contents of SD_N after a READ has completed (10_state.md R31), a free value (log entry 4). -/
opaque Config.freeSdN : Nat → Nat

/-- The unspecified contents of SD_MAG after a READ has completed (10_state.md R31), a free value (log entry 4). -/
opaque Config.freeSdMag : Nat → Nat

/-- The unspecified contents of SD_SIGN after a READ has completed (10_state.md R31), a free value (log entry 4). -/
opaque Config.freeSdSign : Nat → Bool

/-- The unspecified contents of SD_W after a READ has completed (10_state.md R31), a free value (log entry 4). -/
opaque Config.freeSdW : Nat → Width

end Sys2Proof
end

