-- ==== Sys2Proof/Syntax.lean ====
section
/-! DEFINITION. The six commands, the raw request that reaches the command interface, and the command text. -/

namespace Sys2Proof

/-- A buffer operand: where the host's buffer begins in host memory and how many bytes of it the command is given.
For ENCODE `len` is CAP (00_scope.md R11), for DECODE it is L (R12). The block sees only the indices `0 .. len-1`
(20_memory.md R40). DESIGN CHOICE: one host memory holds the host's buffers (log entry 1). -/
structure Slice where
  base : Nat
  len : Nat
  deriving DecidableEq, Repr

/-- The number of a host byte source (30_encoding.md R73, R77). -/
abbrev SourceId := Nat

/-- The command set: one constructor per row of opcode_table.json (30_encoding.md R70), with its operands (R73).
The value port is W bits wide, so a value outside the variant's range cannot be given (40_encoder.md R90). -/
inductive Instr where
  | encode32 (v : BitVec 32) (dst : Slice)
  | decode32 (src : Slice)
  | readVarint32 (src : SourceId)
  | encode64 (v : BitVec 64) (dst : Slice)
  | decode64 (src : Slice)
  | readVarint64 (src : SourceId)
  deriving DecidableEq, Repr

/-- What the host puts on the command interface: the CMD word and the operand ports (30_encoding.md R72, R73). A command
uses the ports of its family's form. `value` is the host's integer, before the boundary of 40_encoder.md R90. -/
structure Request where
  cmd : Byte
  value : Int
  buf : Slice
  source : SourceId
  deriving DecidableEq, Repr

/-- A buffer name in command text: a host buffer, or `B+k`, its sub-buffer that starts at index k (30_encoding.md R77). -/
inductive BufText where
  | whole (b : Slice)
  | plus (b : Slice) (k : Nat)
  deriving DecidableEq, Repr

/-- A line of command text after lexing (30_encoding.md R77), with the raw `.byte` line of 95_test_vectors.md P4. -/
inductive Asm where
  | encode32 (v : Int) (buf : BufText)
  | encode64 (v : Int) (buf : BufText)
  | decode32 (buf : BufText)
  | decode64 (buf : BufText)
  | readVarint32 (stream : SourceId)
  | readVarint64 (stream : SourceId)
  | byte (cmd : Byte)
  deriving DecidableEq, Repr

end Sys2Proof
end

