-- ==== Sys2Proof/WellFormed.lean ====
section
/-! DEFINITION. Which raw requests are commands. A term of `Instr` is well formed by its type (its value port is W bits
wide); what can be ill formed is a request: its CMD word (30_encoding.md R72, R75) or its integer (40_encoder.md R90). -/

namespace Sys2Proof

/-- `v` is a signed integer of the variant's width (40_encoder.md R90). -/
def Width.fits (w : Width) (v : Int) : Bool :=
  decide (-(2 ^ (w.bits - 1)) ≤ v) && decide (v < 2 ^ (w.bits - 1))

/-- CMD[7:3] = 00000 (30_encoding.md R72). -/
def Request.reservedClear (r : Request) : Bool := r.cmd.extractLsb' 3 5 == 0#5

/-- CMD[1:0] is not the reserved 11 (30_encoding.md R72). -/
def Request.opDefined (r : Request) : Bool := r.cmd.extractLsb' 0 2 != 3#2

/-- An ENCODE's integer lies in the range of the width CMD[2] selects (40_encoder.md R90). -/
def Request.valueFits (r : Request) : Bool :=
  r.cmd.extractLsb' 0 2 != 0#2 || (if r.cmd.getLsbD 2 then Width.w64 else Width.w32).fits r.value

/-- The request is one of the six commands with operands its ports can carry. -/
def Request.wellFormed (r : Request) : Bool := r.reservedClear && r.opDefined && r.valueFits

end Sys2Proof
end

