-- ==== Sys2Proof/Decode.lean ====
section
/-! DEFINITION. Command decode (30_encoding.md R74), total on every CMD word and rejecting by name, then the encoder and
the command text of R77. -/

namespace Sys2Proof

/-- The three operations OP selects (30_encoding.md R72). -/
inductive Family where
  | encode
  | decode
  | read
  deriving DecidableEq, Repr

/-- What decoding a request gives. -/
inductive Decoded where
  /-- a command with its operands -/
  | instr (i : Instr)
  /-- R74: the CMD word is reserved; the block raises IllegalCommand with this word -/
  | illegalCommand (cmd : Byte)
  /-- 40_encoder.md R90: the host's integer does not fit the W-bit value port, so no such command exists -/
  | valueOutOfRange (v : Int)
  deriving DecidableEq, Repr

/-- WIDE, CMD[2]: W = 32 + 32*CMD[2] (30_encoding.md R72). -/
def cmdWidth (cmd : Byte) : Width := if cmd.getLsbD 2 then .w64 else .w32

/-- OP, CMD[1:0] (30_encoding.md R72); none for the reserved value 11. -/
def cmdFamily (cmd : Byte) : Option Family :=
  if cmd.extractLsb' 0 2 = 0#2 then some .encode
  else if cmd.extractLsb' 0 2 = 1#2 then some .decode
  else if cmd.extractLsb' 0 2 = 2#2 then some .read
  else none

/-- `decode_cmd` of 30_encoding.md R74; none is IllegalCommand. -/
def decodeCmd (cmd : Byte) : Option (Family × Width) :=
  if cmd.extractLsb' 3 5 ≠ 0#5 then none
  else (cmdFamily cmd).map (fun f => (f, cmdWidth cmd))

/-- Decode of a request: the CMD word first (60_exceptions.md R166), then the boundary of 40_encoder.md R90. -/
def decode (r : Request) : Decoded :=
  match decodeCmd r.cmd with
  | none => .illegalCommand r.cmd
  | some (.encode, .w32) =>
    if Width.w32.fits r.value then .instr (.encode32 (BitVec.ofInt 32 r.value) r.buf) else .valueOutOfRange r.value
  | some (.encode, .w64) =>
    if Width.w64.fits r.value then .instr (.encode64 (BitVec.ofInt 64 r.value) r.buf) else .valueOutOfRange r.value
  | some (.decode, .w32) => .instr (.decode32 r.buf)
  | some (.decode, .w64) => .instr (.decode64 r.buf)
  | some (.read, .w32) => .instr (.readVarint32 r.source)
  | some (.read, .w64) => .instr (.readVarint64 r.source)

/-- The OP field of a family (30_encoding.md R72). -/
def familyBits : Family → BitVec 2
  | .encode => 0b00#2
  | .decode => 0b01#2
  | .read => 0b10#2

/-- The WIDE field of a width (30_encoding.md R72). -/
def widthBit : Width → BitVec 1
  | .w32 => 0#1
  | .w64 => 1#1

/-- The CMD word: RSVD = 00000, WIDE, OP (30_encoding.md R72). -/
def cmdWord (f : Family) (w : Width) : Byte := 0b00000#5 ++ (widthBit w ++ familyBits f)

/-- The request that carries a command; a port its family does not use carries zero. -/
def encode : Instr → Request
  | .encode32 v dst => ⟨cmdWord .encode .w32, v.toInt, dst, 0⟩
  | .encode64 v dst => ⟨cmdWord .encode .w64, v.toInt, dst, 0⟩
  | .decode32 src => ⟨cmdWord .decode .w32, 0, src, 0⟩
  | .decode64 src => ⟨cmdWord .decode .w64, 0, src, 0⟩
  | .readVarint32 k => ⟨cmdWord .read .w32, 0, ⟨0, 0⟩, k⟩
  | .readVarint64 k => ⟨cmdWord .read .w64, 0, ⟨0, 0⟩, k⟩

/-- The request of a table word: the CMD word in the low `nbits` bits. DESIGN CHOICE: every operand port is zero
(log entry 10). -/
def tableRequest (nbits w : Nat) : Request := ⟨BitVec.ofNat 8 (w % 2 ^ nbits), 0, ⟨0, 0⟩, 0⟩

/-- The host's question to the decoder: a command word is 8 bits (30_encoding.md R76), and a value that 8 bits cannot
hold is no command word. -/
def decodeTableWord (nbits w : Nat) : Option Instr :=
  if nbits = 8 ∧ w < 2 ^ 8 then
    match decode (tableRequest nbits w) with
    | .instr i => some i
    | .illegalCommand _ => none
    | .valueOutOfRange _ => none
  else none

/-- The slice a buffer name denotes: `B+k` has capacity CAP(B) - k, or the bytes B[k .. L(B)-1] (30_encoding.md R77).
DESIGN CHOICE: for a `k` beyond the buffer, of which R77 says nothing, `B+k` is an empty buffer (log entry 15). -/
def BufText.slice : BufText → Slice
  | .whole b => b
  | .plus b k => ⟨b.base + k, b.len - k⟩

/-- The request a line of command text stands for, with the CMD codes that 30_encoding.md R77 writes beside the forms. -/
def assemble : Asm → Request
  | .encode32 v b => ⟨0x00#8, v, b.slice, 0⟩
  | .encode64 v b => ⟨0x04#8, v, b.slice, 0⟩
  | .decode32 b => ⟨0x01#8, 0, b.slice, 0⟩
  | .decode64 b => ⟨0x05#8, 0, b.slice, 0⟩
  | .readVarint32 k => ⟨0x02#8, 0, ⟨0, 0⟩, k⟩
  | .readVarint64 k => ⟨0x06#8, 0, ⟨0, 0⟩, k⟩
  | .byte c => ⟨c, 0, ⟨0, 0⟩, 0⟩

end Sys2Proof
end

