-- ==== Sys2Proof/Machine/State.lean ====
section
/-! DEFINITION. The state of the block and of the host-owned stores around it, and the state right after reset. -/

namespace Sys2Proof.Machine

/-- PHASE (10_state.md R27). -/
inductive Phase where
  | idle
  | readBusy
  deriving DecidableEq, Repr

/-- The FAULT register (10_state.md R28). -/
inductive FaultReg where
  | none
  | illegalCommand
  | dstTooSmall
  deriving DecidableEq, Repr

/-- What FAULT_INFO records: the offending CMD word or the offending CAP (10_state.md R28). -/
inductive FaultInfo where
  | cmd (c : Byte)
  | cap (n : Nat)
  deriving DecidableEq, Repr

/-- STATUS (10_state.md R24). -/
inductive Status where
  | ok
  | truncated
  | overflow
  deriving DecidableEq, Repr

/-- A `bits W` value. -/
inductive Val where
  | v32 (x : BitVec 32)
  | v64 (x : BitVec 64)
  deriving DecidableEq, Repr

/-- VALUE and LEN: no value before the first completion (10_state.md R25), *absent* after a command that has none
(R24, R26), or a value. The three are the spec's own contents of these registers. -/
inductive ResultReg (α : Type) where
  | noValue
  | absent
  | holds (a : α)
  deriving DecidableEq, Repr

/-- SD_STATE (10_state.md R29). -/
inductive SdState where
  | awaitFirstByte
  | awaitContinuation
  | done
  deriving DecidableEq, Repr

/-- An answer of a byte source (20_memory.md R45); giving no answer yet is no `Answer`. -/
inductive Answer where
  | byte (b : Byte)
  | endOfInput
  deriving DecidableEq, Repr

/-- A byte source: what it will answer, in order, and its read position (20_memory.md R45, R46). When it answers is
the schedule's (`Input.answer`). -/
structure Source where
  pending : List Answer
  pos : Nat
  deriving DecidableEq, Repr

/-- A source that nobody has supplied: it gives no answer. -/
def Source.silent : Source := ⟨[], 0⟩

/-- The registers the host reads directly (10_state.md R24, R28; 60_exceptions.md R169, R176); `record` is STATUS,
VALUE, LEN and RES_W read together (R24). -/
inductive HostReg where
  | phase
  | fault
  | faultInfo
  | status
  | value
  | len
  | resW
  | record
  deriving DecidableEq, Repr

/-- What a register read of the host gives it: what the register holds, "no value" (10_state.md R25, R35) and *absent* (R24)
as such, and never a number in their place. -/
inductive HostDatum where
  | phase (p : Phase)
  | fault (f : FaultReg)
  | faultInfo (i : Option FaultInfo)
  | status (st : Option Status)
  | value (v : ResultReg Val)
  | len (n : ResultReg Nat)
  | resW (w : Option Width)
  | record (st : Option Status) (v : ResultReg Val) (n : ResultReg Nat) (w : Option Width)
  deriving DecidableEq, Repr

/-- A fault of the host's program, which the model marks in the sense of 93_implementation_defined.md: "a sticky failure
mark". It is no fault of the block. -/
inductive HostFault where
  /-- A result register, alone or in the record, was read before any command had completed (10_state.md R25, 93 U7). -/
  | beforeCompletion (r : HostReg)
  /-- VALUE was read while absent (70_reset_and_hazards.md R185; log entry 6). -/
  | valueAbsent
  deriving DecidableEq, Repr

/-- What can happen next outside the block. -/
inductive Input where
  /-- the host issues a command (30_encoding.md R73) -/
  | issue (r : Request)
  /-- reset (70_reset_and_hazards.md R180, R181) -/
  | reset
  /-- the host reads a register (10_state.md R24, R28) -/
  | hostRead (r : HostReg)
  /-- the byte source bound to the running READ answers its outstanding request (42_stream_decoder.md R133) -/
  | answer
  /-- source `k` has further answers to give, after those it has (20_memory.md R45) -/
  | supply (k : SourceId) (as : List Answer)
  /-- the host writes a byte of its own memory (10_state.md R34) -/
  | hostWrite (a : Nat) (b : Byte)
  /-- another agent takes the next answer of source `k` (20_memory.md R53) -/
  | agentTake (k : SourceId)
  deriving DecidableEq, Repr

/-- Why the machine stops at a fault: it never does, so there is no such reason. The block's faults are contents of FAULT
(60_exceptions.md R160), and a fault of the host's program is a mark (`HostFault`); both are next states. -/
inductive Fault where
  deriving DecidableEq, Repr

/-- What the model gives no meaning. -/
inductive Refusal where
  /-- An instruction without a meaning. No arm of `exec` answers with it. Safe. -/
  | notModelled (mnemonic : String)
  /-- An ENCODE integer outside the value port (40_encoder.md R90, 93 U1). Raised by the input `issue`. Safe. -/
  | valueOutOfRange (v : Int)
  /-- Another agent takes from the byte source of a running READ, a schedule that is not admitted (20_memory.md R53,
  93 U12). Raised by the input `agentTake`. Safe. -/
  | sourceInUse (k : SourceId)
  deriving DecidableEq, Repr

/-- The state. `none` in `faultInfo`, `status` and `resW` is the spec's "no value" (10_state.md R25, R35). -/
structure State where
  /-- PHASE -/
  phase : Phase
  /-- FAULT -/
  fault : FaultReg
  /-- FAULT_INFO -/
  faultInfo : Option FaultInfo
  /-- STATUS -/
  status : Option Status
  /-- VALUE -/
  value : ResultReg Val
  /-- LEN -/
  len : ResultReg Nat
  /-- RES_W -/
  resW : Option Width
  /-- SD_STATE -/
  sdState : SdState
  /-- SD_N -/
  sdN : Nat
  /-- SD_SIGN -/
  sdSign : Bool
  /-- SD_MAG, unbounded (10_state.md R30) -/
  sdMag : Nat
  /-- SD_W -/
  sdW : Width
  /-- the byte source bound to the READ in progress (42_stream_decoder.md R130) -/
  sdSource : SourceId
  /-- the host's byte stores: strictly rising addresses, no byte equal to `Config.unlistedByte` -/
  mem : List Host.Cell
  /-- the host's byte sources: strictly rising numbers, none equal to `Source.silent` -/
  sources : List (Nat × Source)
  /-- what happens next outside the block, in order (log entry 5) -/
  inputs : List Input
  /-- what the host's last register read gave it (log entry 6) -/
  hostData : Option HostDatum
  /-- the first fault of the host's program, if there was one: a sticky mark (log entry 6) -/
  hostFault : Option HostFault
  /-- how many times unspecified values were drawn (log entry 4) -/
  freeCount : Nat
  deriving DecidableEq, Repr

/-- Right after reset (10_state.md R35, 70_reset_and_hazards.md R180), with a host that owns nothing yet. The values of
the stream-decoder registers are a DESIGN CHOICE: the spec leaves them unspecified (log entry 3). -/
def State.reset : State where
  phase := .idle
  fault := .none
  faultInfo := none
  status := none
  value := .noValue
  len := .noValue
  resW := none
  sdState := .done
  sdN := 0
  sdSign := false
  sdMag := 0
  sdW := .w32
  sdSource := 0
  mem := []
  sources := []
  inputs := []
  hostData := none
  hostFault := none
  freeCount := 0

end Sys2Proof.Machine
end

