-- ==== Sys2Proof/Machine/Flags.lean ====
section
/-! DEFINITION. The flags of the wire format and the codes of STATUS and FAULT. The block has no condition codes
(10_state.md R23). -/

namespace Sys2Proof.Machine

/-- The *more* flag, bit 7 of every byte (30_encoding.md R61, R62). -/
def moreFlag (b : Byte) : Bool := b.getLsbD 7

/-- The *sign* flag, bit 6 of byte 0 (30_encoding.md R61). -/
def signFlag (b : Byte) : Bool := b.getLsbD 6

/-- The 2-bit code of STATUS (60_exceptions.md R164); code 3 is never written. -/
def Status.code : Status → BitVec 2
  | .ok => 0
  | .truncated => 1
  | .overflow => 2

/-- The code of FAULT (60_exceptions.md R164). -/
def FaultReg.code : FaultReg → Nat
  | .none => 0
  | .illegalCommand => 1
  | .dstTooSmall => 2

end Sys2Proof.Machine
end

