-- ==== Sys2Proof/Machine/Wire.lean ====
section
/-! DEFINITION. The wire format: chunks and their offsets, the sign bias, and the value a magnitude and a sign stand
for. Shared by the Encoder and both decoders. -/

namespace Sys2Proof.Machine

/-- `off(k) = 6 + 7*(k-1)`, the bit offset of chunk k for k ≥ 1 (30_encoding.md R62). -/
def chunkOffset (k : Nat) : Nat := 6 + 7 * (k - 1)

/-- Chunk 0: bits 5:0 of byte 0 (30_encoding.md R61). -/
def firstChunk (b : Byte) : Nat := (b.extractLsb' 0 6).toNat

/-- The chunk of a later byte: bits 6:0 (30_encoding.md R62). -/
def laterChunk (b : Byte) : Nat := (b.extractLsb' 0 7).toNat

/-- Folding in the chunk of the byte of index `n`: `m | (b[6:0] << (6 + 7*(n-1)))` (41_buffer_decoder.md R111,
42_stream_decoder.md R135). -/
def foldChunk (m n : Nat) (b : Byte) : Nat := m ||| (laterChunk b <<< chunkOffset n)

/-- Byte 0 of an encoding: `(more << 7) | (s << 6) | (m & 0x3F)` (40_encoder.md R91 step 2). -/
def firstByte (more s : Bool) (m : Nat) : Byte :=
  BitVec.ofNat 8 ((more.toNat <<< 7) ||| (s.toNat <<< 6) ||| (m &&& 0x3F))

/-- A later byte of an encoding: `(more << 7) | (m & 0x7F)` (40_encoder.md R91 step 3). -/
def laterByte (more : Bool) (m : Nat) : Byte := BitVec.ofNat 8 ((more.toNat <<< 7) ||| (m &&& 0x7F))

/-- The sign of a value, its top bit (40_encoder.md R91 step 1). -/
def signOf {n : Nat} (v : BitVec n) : Bool := v.msb

/-- The biased magnitude: `uval(v)`, or `uval(~v)` for a negative value (30_encoding.md R69, 40_encoder.md R91). -/
def magnitudeOf {n : Nat} (v : BitVec n) : Nat := if v.msb then (~~~v).toNat else v.toNat

/-- `wrap_W(n)` (00_scope.md R16). -/
def wrapVal (w : Width) (n : Int) : Val :=
  match w with
  | .w32 => .v32 (BitVec.ofInt 32 n)
  | .w64 => .v64 (BitVec.ofInt 64 n)

/-- The value of a sign and a magnitude, reduced modulo 2^W (41_buffer_decoder.md R113). That an out-of-range magnitude
is reduced is the spec's decision D8 (log entry 7). -/
def reconstruct (w : Width) (s : Bool) (m : Nat) : Val :=
  wrapVal w (if s then -((m : Int) + 1) else (m : Int))

end Sys2Proof.Machine
end

