-- ==== Sys2Proof/Machine/Ops.lean ====
section
/-! DEFINITION. The operations the meanings share: the host's byte stores and byte sources, accepting a command, raising
a fault, writing the result record, starting and finishing a READ. -/

namespace Sys2Proof.Machine

/-- The entry of key `k`; `d` where `k` is not listed. -/
def lookup {α : Type} (d : α) (k : Nat) : List (Nat × α) → α
  | [] => d
  | (k', v) :: rest => if k' = k then v else lookup d k rest

/-- Makes `v` the entry of key `k`. On a canonical list the result is canonical: listing `d` removes the entry. -/
def store {α : Type} [DecidableEq α] (d : α) (k : Nat) (v : α) : List (Nat × α) → List (Nat × α)
  | [] => if v = d then [] else [(k, v)]
  | (k', v') :: rest =>
    if k < k' then (if v = d then (k', v') :: rest else (k, v) :: (k', v') :: rest)
    else if k = k' then (if v = d then rest else (k, v) :: rest)
    else (k', v') :: store d k v rest

/-- Keys strictly rising, no entry equal to `d`. -/
def canonical {α : Type} [DecidableEq α] (d : α) : List (Nat × α) → Bool
  | [] => true
  | (k, v) :: rest => decide (v ≠ d) && rest.all (fun e => decide (k < e.1)) && canonical d rest

/-- The canonical form of the host's byte stores. -/
def Memory.wf (m : List Host.Cell) : Bool := canonical Config.unlistedByte m

/-- The canonical form of the host's byte sources. -/
def Sources.wf (l : List (Nat × Source)) : Bool := canonical Source.silent l

/-- One byte of host memory. -/
def State.memRead (s : State) (a : Nat) : Byte := lookup Config.unlistedByte a s.mem

/-- Writes one byte of host memory. -/
def State.memWrite (s : State) (a : Nat) (b : Byte) : State :=
  { s with mem := store Config.unlistedByte a b s.mem }

/-- `MemRead(src+i, 1)` (00_scope.md R17). -/
def State.sliceRead (s : State) (sl : Slice) (i : Nat) : Byte := s.memRead (sl.base + i)

/-- `MemWrite(dst+i, 1, b)` for the bytes `bs` at the indices `i`, `i+1`, ..., in index order (00_scope.md R17,
20_memory.md R41). -/
def State.sliceWrite (s : State) (sl : Slice) (i : Nat) : List Byte → State
  | [] => s
  | b :: bs => State.sliceWrite (s.memWrite (sl.base + i) b) sl (i + 1) bs

/-- A host byte source. -/
def State.source (s : State) (k : SourceId) : Source := lookup Source.silent k s.sources

/-- Changes a host byte source. -/
def State.setSource (s : State) (k : SourceId) (src : Source) : State :=
  { s with sources := store Source.silent k src s.sources }

/-- How far one answer moves a source's position: a byte by 1, End not at all (20_memory.md R46). -/
def Answer.advance : Answer → Nat
  | .byte _ => 1
  | .endOfInput => 0

/-- A source after it has given its answer `a`, with `rest` still to give (20_memory.md R46). -/
def Source.answered (src : Source) (a : Answer) (rest : List Answer) : Source :=
  ⟨rest, src.pos + a.advance⟩

/-- A source with further answers to give. -/
def Source.supplied (src : Source) (as : List Answer) : Source := ⟨src.pending ++ as, src.pos⟩

/-- The block accepts a command (10_state.md R27). -/
def State.accepts (s : State) : Bool := decide (s.phase = .idle) && decide (s.fault = .none)

/-- A command issued while the block does not accept it has no effect on the block (10_state.md R27, R28; log entry 8). -/
def State.whenAccepted (s : State) (f : State → State) : State := if s.accepts then f s else s

/-- `raise F(info)`: records the fault and has no other effect (60_exceptions.md R160). -/
def State.raiseFault (s : State) (f : FaultReg) (info : FaultInfo) : State :=
  { s with fault := f, faultInfo := some info }

/-- The contents of VALUE or LEN for a result that has, or has not, such a value (10_state.md R24). -/
def ResultReg.ofOption {α : Type} : Option α → ResultReg α
  | none => .absent
  | some a => .holds a

/-- A command completes: all four result registers are written (10_state.md R24, R25). -/
def State.complete (s : State) (st : Status) (v : Option Val) (n : Option Nat) (w : Width) : State :=
  { s with status := some st, value := ResultReg.ofOption v, len := ResultReg.ofOption n, resW := some w }

/-- READ begins: PHASE and the stream-decoder registers (10_state.md R31, 42_stream_decoder.md R132), and the source is
bound to the command (R130). -/
def State.startRead (s : State) (w : Width) (k : SourceId) : State :=
  { s with
    phase := .readBusy, sdState := .awaitFirstByte, sdN := 0, sdMag := 0, sdSign := false, sdW := w, sdSource := k }

/-- The stream-decoder registers once no READ uses them: unspecified (10_state.md R31), each a free value
(log entry 4). -/
def State.releaseSd (s : State) : State :=
  { s with
    sdN := Config.freeSdN s.freeCount, sdMag := Config.freeSdMag s.freeCount, sdSign := Config.freeSdSign s.freeCount,
    sdW := Config.freeSdW s.freeCount, freeCount := s.freeCount + 1 }

/-- `FINISH(st, val)` (42_stream_decoder.md R131): the result record with LEN absent, SD_STATE DONE, PHASE IDLE. -/
def State.finishRead (s : State) (st : Status) (v : Option Val) : State :=
  { (s.complete st v none s.sdW).releaseSd with sdState := .done, phase := .idle }

/-- Reset (70_reset_and_hazards.md R180, R181): every register of the block at its reset value, no host-owned store
touched. -/
def State.resetBlock (s : State) : State :=
  { State.reset with
    mem := s.mem, sources := s.sources, inputs := s.inputs, hostData := s.hostData,
    hostFault := s.hostFault, freeCount := s.freeCount }

end Sys2Proof.Machine
end

