-- ==== Sys2Proof/Machine/Operands.lean ====
section
/-! DEFINITION. The operand forms (30_encoding.md R73): a destination's capacity, a source slice's bytes. -/

namespace Sys2Proof.Machine

/-- CAP, the number of bytes of the destination the block may write (00_scope.md R11). -/
def capacity (dst : Slice) : Nat := dst.len

/-- The bytes of a source slice the block may read: the indices below both L and the budget (20_memory.md R42). -/
def sliceBytes (s : State) (src : Slice) (budget : Nat) : List Byte :=
  (List.range (min src.len budget)).map (s.sliceRead src)

end Sys2Proof.Machine
end

