-- ==== Sys2Proof/Machine/BufferDecoder.lean ====
section
/-! DEFINITION. The Buffer Decoder: decode32 and decode64 (41_buffer_decoder.md). -/

namespace Sys2Proof.Machine

/-- Step 3 of `DECODE(W)` (41_buffer_decoder.md R111), entered with `more = 1`: `budget` bytes may still be consumed, `n`
are, `m` is the magnitude so far, and the list is the rest of the slice. Answers the magnitude and the bytes consumed;
none is the exhausted slice of R115. At budget 0 the decode is capped (R114). -/
def decodeMore : Nat → Nat → Nat → List Byte → Option (Nat × Nat)
  | 0, n, m, _ => some (m, n)
  | _ + 1, _, _, [] => none
  | budget + 1, n, m, b :: rest =>
    if moreFlag b then decodeMore budget (n + 1) (foldChunk m n b) rest else some (foldChunk m n b, n + 1)

/-- The sign, the magnitude and the bytes consumed of a slice (41_buffer_decoder.md R111); none is `(0, 0)` (R115). -/
def decodeBytes (w : Width) : List Byte → Option (Bool × Nat × Nat)
  | [] => none
  | b :: rest =>
    if moreFlag b then (decodeMore (w.maxLen - 1) 1 (firstChunk b) rest).map (fun r => (signFlag b, r.1, r.2))
    else some (signFlag b, firstChunk b, 1)

/-- `DECODE(W)` of an accepted command (41_buffer_decoder.md R111). -/
def runDecode (w : Width) (src : Slice) (s : State) : State :=
  match decodeBytes w (sliceBytes s src w.maxLen) with
  | none => s.complete .ok (some (wrapVal w 0)) (some 0) w
  | some (sign, m, n) => s.complete .ok (some (reconstruct w sign m)) (some n) w

/-- decode32 (41_buffer_decoder.md R116). -/
def execDecode32 (src : Slice) (s : State) : Host.Outcome State Fault Refusal :=
  .next (s.whenAccepted (runDecode .w32 src))

/-- decode64 (41_buffer_decoder.md R117). -/
def execDecode64 (src : Slice) (s : State) : Host.Outcome State Fault Refusal :=
  .next (s.whenAccepted (runDecode .w64 src))

end Sys2Proof.Machine
end

