-- ==== Sys2Proof/Machine/Encoder.lean ====
section
/-! DEFINITION. The Encoder: encode32 and encode64 (40_encoder.md). -/

namespace Sys2Proof.Machine

/-- Step 3 of `ENCODE(W)` (40_encoder.md R91): the bytes after byte 0, `while m != 0`. `budget` bounds the loop and is
never the reason it ends (30_encoding.md R66). -/
def laterBytes : Nat → Nat → List Byte
  | 0, _ => []
  | budget + 1, m => if m = 0 then [] else laterByte (decide (m >>> 7 ≠ 0)) m :: laterBytes budget (m >>> 7)

/-- The bytes `ENCODE(W)` emits for a sign and a magnitude (40_encoder.md R91 steps 2 and 3). -/
def encodeBytes (w : Width) (s : Bool) (m : Nat) : List Byte :=
  firstByte (decide (m >>> 6 ≠ 0)) s m :: laterBytes (w.maxLen - 1) (m >>> 6)

/-- `ENCODE(W)` of an accepted command (40_encoder.md R91). -/
def runEncode (w : Width) (sign : Bool) (m : Nat) (dst : Slice) (s : State) : State :=
  if capacity dst < w.maxLen then s.raiseFault .dstTooSmall (.cap (capacity dst))
  else
    (s.sliceWrite dst 0 (encodeBytes w sign m)).complete .ok none (some (encodeBytes w sign m).length) w

/-- encode32 (40_encoder.md R95). -/
def execEncode32 (v : BitVec 32) (dst : Slice) (s : State) : Host.Outcome State Fault Refusal :=
  .next (s.whenAccepted (runEncode .w32 (signOf v) (magnitudeOf v) dst))

/-- encode64 (40_encoder.md R96). -/
def execEncode64 (v : BitVec 64) (dst : Slice) (s : State) : Host.Outcome State Fault Refusal :=
  .next (s.whenAccepted (runEncode .w64 (signOf v) (magnitudeOf v) dst))

end Sys2Proof.Machine
end

