-- ==== Sys2Proof/Machine/StreamDecoder.lean ====
section
/-! DEFINITION. The Stream Decoder: readVarint32 and readVarint64, and the step a READ takes for each answer of its byte
source (42_stream_decoder.md). -/

namespace Sys2Proof.Machine

/-- readVarint32 (42_stream_decoder.md R140): the READ begins; its steps follow, one per answer (R133). -/
def execReadVarint32 (k : SourceId) (s : State) : Host.Outcome State Fault Refusal :=
  .next (s.whenAccepted (fun t => t.startRead .w32 k))

/-- readVarint64 (42_stream_decoder.md R141): the READ begins; its steps follow, one per answer (R133). -/
def execReadVarint64 (k : SourceId) (s : State) : Host.Outcome State Fault Refusal :=
  .next (s.whenAccepted (fun t => t.startRead .w64 k))

/-- The block has an outstanding `StreamRead()` (42_stream_decoder.md R133). -/
def State.requests (s : State) : Bool := decide (s.phase = .readBusy) && decide (s.sdState ≠ .done)

/-- The first part of a step on a `Byte(b)` answer (42_stream_decoder.md R131, R134, R135): the sign, the chunk and the
count. -/
def State.absorb (s : State) (b : Byte) : State :=
  match s.sdState with
  | .awaitFirstByte => { s with sdSign := signFlag b, sdMag := firstChunk b, sdN := s.sdN + 1 }
  | .awaitContinuation => { s with sdMag := foldChunk s.sdMag s.sdN b, sdN := s.sdN + 1 }
  | .done => s

/-- The second part: success (42_stream_decoder.md R139) before overflow (R136; 60_exceptions.md R166), else the next
continuation byte is awaited. -/
def State.concludeByte (s : State) (b : Byte) : State :=
  if moreFlag b = false then s.finishRead .ok (some (reconstruct s.sdW s.sdSign s.sdMag))
  else if s.sdN = s.sdW.maxLen then s.finishRead .overflow none
  else { s with sdState := .awaitContinuation }

/-- One step of a READ on an answer (42_stream_decoder.md R133); End is truncation (R138). -/
def State.readStep (s : State) : Answer → State
  | .endOfInput => s.finishRead .truncated none
  | .byte b => (s.absorb b).concludeByte b

/-- The source bound to the running READ answers. With no request outstanding, or with nothing to answer, the block has
no step (42_stream_decoder.md R133, R137). -/
def State.serveAnswer (s : State) : State :=
  if s.requests then
    match (s.source s.sdSource).pending with
    | [] => s
    | a :: rest => (s.setSource s.sdSource ((s.source s.sdSource).answered a rest)).readStep a
  else s

end Sys2Proof.Machine
end

