-- ==== Sys2Proof/Machine/Dispatch.lean ====
section
/-! DEFINITION. One arm per command of 30_encoding.md R70. -/

namespace Sys2Proof.Machine

/-- A command with its operands, issued in a state. -/
def exec (i : Instr) (s : State) : Host.Outcome State Fault Refusal :=
  match i with
  | .encode32 v dst => Sys2Proof.Machine.execEncode32 v dst s
  | .decode32 src => Sys2Proof.Machine.execDecode32 src s
  | .readVarint32 k => Sys2Proof.Machine.execReadVarint32 k s
  | .encode64 v dst => Sys2Proof.Machine.execEncode64 v dst s
  | .decode64 src => Sys2Proof.Machine.execDecode64 src s
  | .readVarint64 k => Sys2Proof.Machine.execReadVarint64 k s

end Sys2Proof.Machine
end

