-- ==== Sys2Proof/Machine/Interface.lean ====
section
/-! DEFINITION. What an input does: the command interface with its reserved CMD words, the register reads of the host,
its memory, the byte sources. -/

namespace Sys2Proof.Machine

/-- A reserved CMD word (60_exceptions.md R162). -/
def illegalCommand (cmd : Byte) (s : State) : State := s.whenAccepted (fun t => t.raiseFault .illegalCommand (.cmd cmd))

/-- The host is given a datum it has read. -/
def State.giveHost (s : State) (d : HostDatum) : State := { s with hostData := some d }

/-- Marks a fault of the host's program. The mark is sticky: the first one stays (93_implementation_defined.md). -/
def State.markHostFault (s : State) (f : Option HostFault) : State := { s with hostFault := s.hostFault.or f }

/-- What a register holds, for the host to read (10_state.md R24, R28; 60_exceptions.md R169, R176). -/
def State.hostView (s : State) (r : HostReg) : HostDatum :=
  match r with
  | .phase => .phase s.phase
  | .fault => .fault s.fault
  | .faultInfo => .faultInfo s.faultInfo
  | .status => .status s.status
  | .value => .value s.value
  | .len => .len s.len
  | .resW => .resW s.resW
  | .record => .record s.status s.value s.len s.resW

/-- Whether a register read is a fault of the host's program: a result register before any command has completed
(10_state.md R25), VALUE while absent (70_reset_and_hazards.md R185; log entry 6). The record may be read with VALUE or LEN
absent (10_state.md R24), LEN alone while absent is forbidden by no rule, and PHASE, FAULT and FAULT_INFO are no result
registers. -/
def State.hostReadFault (s : State) (r : HostReg) : Option HostFault :=
  match r with
  | .phase => none
  | .fault => none
  | .faultInfo => none
  | .status => if s.status = none then some (.beforeCompletion .status) else none
  | .value =>
    if s.value = .noValue then some (.beforeCompletion .value)
    else if s.value = .absent then some .valueAbsent
    else none
  | .len => if s.len = .noValue then some (.beforeCompletion .len) else none
  | .resW => if s.resW = none then some (.beforeCompletion .resW) else none
  | .record =>
    if s.status = none ∨ s.value = .noValue ∨ s.len = .noValue ∨ s.resW = none then some (.beforeCompletion .record)
    else none

/-- A register read of the host: it is given what the register holds, and a fault of its program is marked. The block goes
on unchanged. -/
def hostRead (r : HostReg) (s : State) : State := (s.giveHost (s.hostView r)).markHostFault (s.hostReadFault r)

/-- Another agent takes the next answer of a source. While a READ is bound to that source the schedule is not admitted
(20_memory.md R53); a source with nothing to give gives nothing. -/
def agentTake (k : SourceId) (s : State) : Host.Outcome State Fault Refusal :=
  if s.phase = .readBusy ∧ s.sdSource = k then .refused (.sourceInUse k)
  else
    match (s.source k).pending with
    | [] => .next s
    | a :: rest => .next (s.setSource k ((s.source k).answered a rest))

/-- A request reaches the command interface (30_encoding.md R74, 40_encoder.md R90). -/
def issue (r : Request) (s : State) : Host.Outcome State Fault Refusal :=
  match decode r with
  | .instr i => exec i s
  | .illegalCommand cmd => .next (illegalCommand cmd s)
  | .valueOutOfRange v => .refused (.valueOutOfRange v)

/-- An input takes effect. -/
def perform (i : Input) (s : State) : Host.Outcome State Fault Refusal :=
  match i with
  | .issue r => issue r s
  | .reset => .next s.resetBlock
  | .hostRead r => .next (hostRead r s)
  | .answer => .next s.serveAnswer
  | .supply k as => .next (s.setSource k ((s.source k).supplied as))
  | .hostWrite a b => .next (s.memWrite a b)
  | .agentTake k => agentTake k s

end Sys2Proof.Machine
end

