-- ==== Sys2Proof/Machine/Step.lean ====
section
/-! DEFINITION. One step: the next input takes effect. -/

namespace Sys2Proof.Machine

/-- One step takes the next input. With none nothing happens: an idle block waits for a command, a READ whose source
does not answer is held (42_stream_decoder.md R137). -/
def step (s : State) : Host.Outcome State Fault Refusal :=
  match s.inputs with
  | [] => .next s
  | i :: rest => perform i { s with inputs := rest }

/-- The table word `w` is the next command the host issues; its operand ports are zero (log entry 10). -/
def State.withFetchWord (s : State) (nbits w : Nat) : State :=
  { s with inputs := .issue (tableRequest nbits w) :: s.inputs }

end Sys2Proof.Machine
end

