-- ==== Sys2Proof/Safety.lean ====
section
/-! DEFINITION. The terms the claims are stated in: the invariant of the machine, the wire format read off
30_encoding.md (not off the machine's algorithms), and the effects of a READ step. -/

namespace Sys2Proof.Machine

/-- The width of a value. -/
def Val.width : Val → Width
  | .v32 _ => .w32
  | .v64 _ => .w64

/-- FAULT and FAULT_INFO agree (10_state.md R28): a reserved CMD word, or a capacity below some budget. -/
def State.faultOk (s : State) : Bool :=
  match s.fault, s.faultInfo with
  | .none, none => true
  | .illegalCommand, some (.cmd c) => decide (decodeCmd c = none)
  | .dstTooSmall, some (.cap n) => decide (n < 10)
  | _, _ => false

/-- The result registers hold no value, or what one completed command writes (10_state.md R24, R25, R26): in turn an
ENCODE, a DECODE, a READ that succeeded, one that did not. -/
def State.resultOk (s : State) : Bool :=
  match s.status, s.value, s.len, s.resW with
  | none, .noValue, .noValue, none => true
  | some .ok, .absent, .holds n, some w => decide (1 ≤ n) && decide (n ≤ w.maxLen)
  | some .ok, .holds v, .holds n, some w =>
    decide (v.width = w) && decide (n ≤ w.maxLen) && (decide (n ≠ 0) || decide (v = wrapVal w 0))
  | some .ok, .holds v, .absent, some w => decide (v.width = w)
  | some .truncated, .absent, .absent, some _ => true
  | some .overflow, .absent, .absent, some _ => true
  | _, _, _, _ => false

/-- The stream-decoder registers of a READ in progress (10_state.md R30, R31). Between READs nothing is said of them. -/
def State.sdOk (s : State) : Bool :=
  match s.phase, s.sdState with
  | .idle, _ => true
  | .readBusy, .awaitFirstByte => decide (s.sdN = 0) && decide (s.sdMag = 0) && !s.sdSign
  | .readBusy, .awaitContinuation =>
    decide (1 ≤ s.sdN) && decide (s.sdN < s.sdW.maxLen) && decide (s.sdMag < 2 ^ (6 + 7 * (s.sdN - 1)))
  | .readBusy, .done => false

/-- The invariant of the machine. -/
structure State.Inv (s : State) : Prop where
  /-- host memory is in canonical form -/
  memWf : Memory.wf s.mem = true
  /-- the byte sources are in canonical form -/
  sourcesWf : Sources.wf s.sources = true
  /-- FAULT and FAULT_INFO agree -/
  fault : s.faultOk = true
  /-- a faulted block is idle: it was idle when it accepted the command that faulted (10_state.md R27, R28) -/
  faultedIdle : s.fault ≠ .none → s.phase = .idle
  /-- the result registers hold no value or one command's results -/
  result : s.resultOk = true
  /-- a READ in progress is in one of its two waiting states, with its registers in range -/
  sd : s.sdOk = true

/-- Every register of the block holds in `t` what it holds in `s`. -/
structure SameBlock (s t : State) : Prop where
  phase : t.phase = s.phase
  fault : t.fault = s.fault
  faultInfo : t.faultInfo = s.faultInfo
  status : t.status = s.status
  value : t.value = s.value
  len : t.len = s.len
  resW : t.resW = s.resW
  sdState : t.sdState = s.sdState
  sdN : t.sdN = s.sdN
  sdSign : t.sdSign = s.sdSign
  sdMag : t.sdMag = s.sdMag
  sdW : t.sdW = s.sdW
  sdSource : t.sdSource = s.sdSource

/-- The magnitude of a value (30_encoding.md R64). -/
def biasedMag (v : Int) : Nat := if 0 ≤ v then v.toNat else (-v - 1).toNat

/-- The value of a sign and a magnitude before any reduction (30_encoding.md R64). -/
def signedValue (s : Bool) (m : Nat) : Int := if s then -((m : Int) + 1) else (m : Int)

/-- `n` is the canonical length of `m`: the least `b ≥ 1` with `m < 2^(6 + 7*(b-1))` (30_encoding.md R65). -/
abbrev CanonicalLength (m n : Nat) : Prop :=
  1 ≤ n ∧ m < 2 ^ (6 + 7 * (n - 1)) ∧ ∀ b, b < n → 1 ≤ b → 2 ^ (6 + 7 * (b - 1)) ≤ m

/-- The more flag is 0 in the last byte and 1 in every other (30_encoding.md R63). -/
abbrev Terminated (bs : List Byte) : Prop :=
  bs ≠ [] ∧ ∀ k, k < bs.length → (bs.getD k 0).getLsbD 7 = decide (k + 1 < bs.length)

/-- The more flag is 1 in every byte. -/
abbrev Unterminated (bs : List Byte) : Prop := ∀ k, k < bs.length → (bs.getD k 0).getLsbD 7 = true

/-- The chunks of the bytes after byte 0 as one number, least-significant first (30_encoding.md R62). -/
def laterMag : List Byte → Nat
  | [] => 0
  | b :: rest => b.toNat % 2 ^ 7 + 2 ^ 7 * laterMag rest

/-- The magnitude a byte sequence carries: bits 5:0 of byte 0, then 7 bits a byte (30_encoding.md R61, R62). -/
def wireMag : List Byte → Nat
  | [] => 0
  | b :: rest => b.toNat % 2 ^ 6 + 2 ^ 6 * laterMag rest

/-- The sign flag a byte sequence carries: bit 6 of byte 0 (30_encoding.md R61). -/
def wireSign (bs : List Byte) : Bool := (bs.getD 0 0).getLsbD 6

/-- The slice begins with the bytes `bs`. -/
abbrev SliceHolds (s : State) (src : Slice) (bs : List Byte) : Prop :=
  bs.length ≤ src.len ∧ ∀ k, k < bs.length → s.memRead (src.base + k) = bs.getD k 0

/-- The bytes at the indices `0 .. n-1` of a buffer. -/
def firstBytes (s : State) (sl : Slice) (n : Nat) : List Byte := (List.range n).map (fun i => s.memRead (sl.base + i))

/-- decode32 or decode64. -/
def decodeOf : Width → Slice → Instr
  | .w32, src => .decode32 src
  | .w64, src => .decode64 src

/-- readVarint32 or readVarint64. -/
def readOf : Width → SourceId → Instr
  | .w32, k => .readVarint32 k
  | .w64, k => .readVarint64 k

/-- encode32 or encode64 of an integer of the width. -/
def encodeOf : Width → Int → Slice → Instr
  | .w32, v, dst => .encode32 (BitVec.ofInt 32 v) dst
  | .w64, v, dst => .encode64 (BitVec.ofInt 64 v) dst

/-- From `s` to `t` source `k` has given the answer `a` and keeps `rest` to give; no other source has changed
(20_memory.md R46). -/
structure SourceGave (s t : State) (k : SourceId) (a : Answer) (rest : List Answer) : Prop where
  pending : (t.source k).pending = rest
  pos : (t.source k).pos = (s.source k).pos + (if a = .endOfInput then 0 else 1)
  others : ∀ j, j ≠ k → t.source j = s.source j

/-- From `s` to `t` the READ in progress has completed with a status and a value (42_stream_decoder.md R131 FINISH):
LEN is absent, the block idle; no other register of the block outside the stream decoder and no memory has changed.
Nothing is said of the stream-decoder registers but SD_STATE, which are unspecified now (10_state.md R31). -/
structure ReadCompleted (s t : State) (st : Status) (v : ResultReg Val) : Prop where
  phase : t.phase = .idle
  sdState : t.sdState = .done
  status : t.status = some st
  value : t.value = v
  len : t.len = .absent
  resW : t.resW = some s.sdW
  fault : t.fault = s.fault
  faultInfo : t.faultInfo = s.faultInfo
  mem : t.mem = s.mem
  hostData : t.hostData = s.hostData
  hostFault : t.hostFault = s.hostFault

/-- An answer after which a READ asks for no more: End, or a byte without the more flag (42_stream_decoder.md R138,
R139). -/
def Answer.endsRead : Answer → Bool
  | .byte b => !b.getLsbD 7
  | .endOfInput => true

/-- The answers bring any READ of width `w` to its end: there are MAXLEN of them, or one of them ends the READ
(42_stream_decoder.md R144). -/
abbrev AnswersSuffice (w : Width) (as : List Answer) : Prop := w.maxLen ≤ as.length ∨ ∃ a ∈ as, a.endsRead = true

/-- The state in which the host issues the READ next and its source then answers `n` requests. -/
def readScript (s : State) (w : Width) (k : SourceId) (n : Nat) : State :=
  { s with inputs := .issue (encode (readOf w k)) :: List.replicate n .answer }

end Sys2Proof.Machine
end

