-- ==== Sys2Proof/Certificates/Slice0/Obligations.lean ====
section
/-! DEFINITION. The statements for the provers. -/

open Sys2Proof Sys2Proof.Machine

/-! ### Commands and their encoding -/

/-- 30_encoding.md R74: a reserved CMD word is rejected with itself; each legal one gives its operation with the operand
ports of its form. -/
def Obligations.CommandWordsDecodeAsSpecified : Prop :=
  ∀ r : Request,
    (r.cmd.extractLsb' 3 5 ≠ 0#5 ∨ r.cmd.extractLsb' 0 2 = 0b11#2 → decode r = .illegalCommand r.cmd) ∧
    (r.cmd = 0x00#8 → -2 ^ 31 ≤ r.value → r.value < 2 ^ 31 →
      decode r = .instr (.encode32 (BitVec.ofInt 32 r.value) r.buf)) ∧
    (r.cmd = 0x01#8 → decode r = .instr (.decode32 r.buf)) ∧
    (r.cmd = 0x02#8 → decode r = .instr (.readVarint32 r.source)) ∧
    (r.cmd = 0x04#8 → -2 ^ 63 ≤ r.value → r.value < 2 ^ 63 →
      decode r = .instr (.encode64 (BitVec.ofInt 64 r.value) r.buf)) ∧
    (r.cmd = 0x05#8 → decode r = .instr (.decode64 r.buf)) ∧
    (r.cmd = 0x06#8 → decode r = .instr (.readVarint64 r.source))

/-- The six CMD words of 30_encoding.md R70 and some reserved ones (R75), as bits, through the table's own question. That a
table word comes with operand ports of zero (the integer 0, an empty buffer at 0, source 0) is the model's choice, log
entry 10: neither rule gives operands. -/
def Obligations.TableWordsDecode : Prop :=
  decodeTableWord 8 0b00000000 = some (.encode32 0 ⟨0, 0⟩) ∧ decodeTableWord 8 0b00000001 = some (.decode32 ⟨0, 0⟩) ∧
  decodeTableWord 8 0b00000010 = some (.readVarint32 0) ∧ decodeTableWord 8 0b00000100 = some (.encode64 0 ⟨0, 0⟩) ∧
  decodeTableWord 8 0b00000101 = some (.decode64 ⟨0, 0⟩) ∧ decodeTableWord 8 0b00000110 = some (.readVarint64 0) ∧
  decodeTableWord 8 0b00000011 = none ∧ decodeTableWord 8 0b00000111 = none ∧ decodeTableWord 8 0b00001000 = none ∧
  decodeTableWord 8 0b11111111 = none

/-- Decoding an encoded command gives it back, for all operands: no bit of the CMD word or of a port is lost. -/
def Obligations.DecodeOfEncodeIsTheCommand : Prop := ∀ i : Instr, decode (encode i) = .instr i

/-- The other direction: a request that decodes to a command carries that command's CMD word and its operands in the
ports of its form (30_encoding.md R73). -/
def Obligations.DecodedRequestCarriesTheCommand : Prop :=
  ∀ r i, decode r = .instr i → (encode i).cmd = r.cmd ∧
    match i with
    | .encode32 _ _ => (encode i).value = r.value ∧ (encode i).buf = r.buf
    | .encode64 _ _ => (encode i).value = r.value ∧ (encode i).buf = r.buf
    | .decode32 _ => (encode i).buf = r.buf
    | .decode64 _ => (encode i).buf = r.buf
    | .readVarint32 _ => (encode i).source = r.source
    | .readVarint64 _ => (encode i).source = r.source

/-- A request is well formed exactly if it decodes to a command. -/
def Obligations.WellFormedRequestsAreTheCommands : Prop :=
  ∀ r : Request, r.wellFormed = true ↔ ∃ i, decode r = .instr i

/-- 30_encoding.md R77: each form of command text is its command on the named buffer, sub-buffer (`B+k` with `k` within the
buffer) or stream; and the raw `.byte` line of 95_test_vectors.md P4, with a reserved code, is no command. That text is
modelled after lexing is the model's choice, log entry 12. -/
def Obligations.CommandTextAssembles : Prop :=
  (∀ v b, Width.w32.fits v = true →
    decode (assemble (.encode32 v (.whole b))) = .instr (.encode32 (BitVec.ofInt 32 v) b)) ∧
  (∀ v b, Width.w64.fits v = true →
    decode (assemble (.encode64 v (.whole b))) = .instr (.encode64 (BitVec.ofInt 64 v) b)) ∧
  (∀ v b k, Width.w32.fits v = true → k ≤ b.len →
    decode (assemble (.encode32 v (.plus b k))) = .instr (.encode32 (BitVec.ofInt 32 v) ⟨b.base + k, b.len - k⟩)) ∧
  (∀ v b k, Width.w64.fits v = true → k ≤ b.len →
    decode (assemble (.encode64 v (.plus b k))) = .instr (.encode64 (BitVec.ofInt 64 v) ⟨b.base + k, b.len - k⟩)) ∧
  (∀ b, decode (assemble (.decode32 (.whole b))) = .instr (.decode32 b)) ∧
  (∀ b, decode (assemble (.decode64 (.whole b))) = .instr (.decode64 b)) ∧
  (∀ b k, k ≤ b.len → decode (assemble (.decode32 (.plus b k))) = .instr (.decode32 ⟨b.base + k, b.len - k⟩)) ∧
  (∀ b k, k ≤ b.len → decode (assemble (.decode64 (.plus b k))) = .instr (.decode64 ⟨b.base + k, b.len - k⟩)) ∧
  (∀ k, decode (assemble (.readVarint32 k)) = .instr (.readVarint32 k)) ∧
  (∀ k, decode (assemble (.readVarint64 k)) = .instr (.readVarint64 k)) ∧
  (∀ c : Byte, c.extractLsb' 3 5 ≠ 0#5 ∨ c.extractLsb' 0 2 = 0b11#2 → decode (assemble (.byte c)) = .illegalCommand c)

/-- The host issues one command at a time (00_scope.md R7), and it is the one its request decodes to (30_encoding.md R74):
when the host's next request decodes to a command, the step is that command, with the request gone from the inputs; the
table word placed by `withFetchWord` is the next request. That requests wait in a list of inputs (log entry 5), and that a
table word comes with operand ports of zero (log entry 10), are the model's choices. -/
def Obligations.StepRunsTheDecodedCommand : Prop :=
  (∀ s r rest i, s.inputs = .issue r :: rest → decode r = .instr i → step s = exec i { s with inputs := rest }) ∧
  (∀ s nbits w i, decodeTableWord nbits w = some i → step (s.withFetchWord nbits w) = exec i s)

/-! ### The wire format's numbers -/

/-- The bias of a negative value is its complement read unsigned, below 2^(W-1) (the sentence of 30_encoding.md R69 "the
biased magnitude equals uval(~v)", an inference the spec marks as its own); and the machine's magnitude and sign of any
value are those of R64. -/
def Obligations.BiasIsTheComplement : Prop :=
  (∀ v : BitVec 32, v.toInt < 0 →
    -v.toInt - 1 = ((~~~v).toNat : Int) ∧ 0 ≤ -v.toInt - 1 ∧ -v.toInt - 1 ≤ 2 ^ 31 - 1) ∧
  (∀ v : BitVec 64, v.toInt < 0 →
    -v.toInt - 1 = ((~~~v).toNat : Int) ∧ 0 ≤ -v.toInt - 1 ∧ -v.toInt - 1 ≤ 2 ^ 63 - 1) ∧
  (∀ v : BitVec 32, magnitudeOf v = biasedMag v.toInt ∧ signOf v = decide (v.toInt < 0)) ∧
  (∀ v : BitVec 64, magnitudeOf v = biasedMag v.toInt ∧ signOf v = decide (v.toInt < 0))

/-- 41_buffer_decoder.md R113: the value is exact whenever `m ≤ 2^(W-1) - 1`, `m` or `-(m+1)` by the sign; and with the
sign set it is the complement of `wrap_W(m)` (the sentence of R113 "wrap_W(-(m+1)) = ~wrap_W(m)", an inference the spec
marks as its own from its decision D8, log entry 7). -/
def Obligations.ReconstructionIsExactInRange : Prop :=
  (∀ s m, m ≤ 2 ^ 31 - 1 → ∃ x : BitVec 32, reconstruct .w32 s m = .v32 x ∧ x.toInt = signedValue s m) ∧
  (∀ s m, m ≤ 2 ^ 63 - 1 → ∃ x : BitVec 64, reconstruct .w64 s m = .v64 x ∧ x.toInt = signedValue s m) ∧
  (∀ m, reconstruct .w32 true m = .v32 (~~~(BitVec.ofNat 32 m))) ∧
  (∀ m, reconstruct .w64 true m = .v64 (~~~(BitVec.ofNat 64 m)))

/-- A magnitude register of any width `g ≥ W` gives the same value (the sentence of 00_scope.md R10 "Every MAGW(W) >= W
gives the same results", an inference the spec marks as its own; it rests on decision D8, log entry 7). -/
def Obligations.MagnitudeRegisterWidthHasNoEffect : Prop :=
  ∀ w s m g, w.bits ≤ g → reconstruct w s (m % 2 ^ g) = reconstruct w s m

/-! ### The Encoder -/

/-- 40_encoder.md R91, R95, R96: an accepted ENCODE with enough capacity completes; STATUS OK, VALUE absent, RES_W, and
LEN the canonical length (R65) within the budget are written; but for those and memory the state is unchanged. -/
def Obligations.EncodeCompletesWithCanonicalLength : Prop :=
  ∀ (w : Width) (v : Int) (dst : Slice) (s : State), w.fits v = true → s.accepts = true → w.maxLen ≤ dst.len →
    ∃ n t, exec (encodeOf w v dst) s = .next t ∧ CanonicalLength (biasedMag v) n ∧ n ≤ w.maxLen ∧
      t = { s with mem := t.mem, status := some .ok, value := .absent, len := .holds n, resW := some w }

/-- The length, the layout of 30_encoding.md R61 and R62 with the more flags of R63, and no byte beyond LEN written: the
three items of 40_encoder.md R92, an inference the spec marks as its own, here about the machine's ENCODE. That the
destination's bytes at index LEN and above stay as they were is the spec's decision D6 and the model's choice, log
entry 13. -/
def Obligations.EncodeOutputHasTheWireLayout : Prop :=
  ∀ (w : Width) (v : Int) (dst : Slice) (s t : State) (n : Nat), w.fits v = true → s.Inv →
    s.accepts = true → w.maxLen ≤ dst.len → exec (encodeOf w v dst) s = .next t → t.len = .holds n →
    CanonicalLength (biasedMag v) n ∧ 1 ≤ n ∧ n ≤ w.maxLen ∧
    (t.memRead dst.base).toNat % 2 ^ 6 = biasedMag v % 2 ^ 6 ∧
    (t.memRead dst.base).getLsbD 6 = decide (v < 0) ∧
    (∀ k, 1 ≤ k → k < n →
      (t.memRead (dst.base + k)).toNat % 2 ^ 7 = biasedMag v / 2 ^ (6 + 7 * (k - 1)) % 2 ^ 7) ∧
    (∀ k, k < n → (t.memRead (dst.base + k)).getLsbD 7 = decide (k + 1 < n)) ∧
    (∀ a, (∀ k, k < n → a ≠ dst.base + k) → t.memRead a = s.memRead a)

/-- 60_exceptions.md R163, R160: a capacity below the budget raises DstTooSmall whatever the value is: FAULT and
FAULT_INFO are written and nothing else. -/
def Obligations.EncodeIntoSmallDestinationFaults : Prop :=
  (∀ (v : BitVec 32) (dst : Slice) (s : State), s.accepts = true → dst.len < 5 →
    exec (.encode32 v dst) s = .next { s with fault := .dstTooSmall, faultInfo := some (.cap dst.len) }) ∧
  (∀ (v : BitVec 64) (dst : Slice) (s : State), s.accepts = true → dst.len < 10 →
    exec (.encode64 v dst) s = .next { s with fault := .dstTooSmall, faultInfo := some (.cap dst.len) })

/-- A value of V32 is encoded alike by both variants, byte for byte and in LEN (the sentence of 40_encoder.md R97 "encode32
and encode64 write the same bytes and the same LEN", an inference the spec marks as its own). -/
def Obligations.EncodeVariantsAgree : Prop :=
  ∀ (v : BitVec 32) (dst : Slice) (s : State), s.accepts = true → 10 ≤ dst.len →
    ∃ t u, exec (.encode32 v dst) s = .next t ∧ exec (.encode64 (v.signExtend 64) dst) s = .next u ∧
      t.mem = u.mem ∧ t.len = u.len

/-! ### The Buffer Decoder -/

/-- 41_buffer_decoder.md R111, R113: a slice that begins with a terminated sequence of at most MAXLEN bytes decodes to the
value of its sign and magnitude, reduced modulo 2^W (D8, log entry 7), and its length; nothing but the result registers
changes, whatever bytes follow. -/
def Obligations.DecodeOfTerminatedSequence : Prop :=
  ∀ (w : Width) (src : Slice) (s : State) (bs : List Byte), s.accepts = true → Terminated bs →
    bs.length ≤ w.maxLen → SliceHolds s src bs →
    exec (decodeOf w src) s = .next { s with
      status := some .ok, value := .holds (wrapVal w (signedValue (wireSign bs) (wireMag bs))),
      len := .holds bs.length, resW := some w }

/-- 41_buffer_decoder.md R114: MAXLEN bytes that all have the more flag are capped: every chunk is used, LEN is MAXLEN, no
error is raised, and nothing beyond those bytes matters. That an out-of-range magnitude is reduced modulo 2^W (R113) is the
spec's decision D8 and the model's choice, log entry 7. -/
def Obligations.DecodeCapsAtTheBudget : Prop :=
  ∀ (w : Width) (src : Slice) (s : State) (bs : List Byte), s.accepts = true → Unterminated bs →
    bs.length = w.maxLen → SliceHolds s src bs →
    exec (decodeOf w src) s = .next { s with
      status := some .ok, value := .holds (wrapVal w (signedValue (wireSign bs) (wireMag bs))),
      len := .holds w.maxLen, resW := some w }

/-- 41_buffer_decoder.md R115: an empty slice, or one that ends while more = 1 before the budget, gives VALUE 0 and LEN 0
with STATUS OK; and LEN is 0 in no other case. -/
def Obligations.DecodeOfInsufficientData : Prop :=
  ∀ (w : Width) (src : Slice) (s : State), s.accepts = true →
    (src.len < w.maxLen → (∀ k, k < src.len → (s.memRead (src.base + k)).getLsbD 7 = true) →
      exec (decodeOf w src) s = .next { s with
        status := some .ok, value := .holds (wrapVal w 0), len := .holds 0, resW := some w }) ∧
    (∀ t, exec (decodeOf w src) s = .next t → t.len = .holds 0 →
      src.len < w.maxLen ∧ ∀ k, k < src.len → (s.memRead (src.base + k)).getLsbD 7 = true)

/-- 41_buffer_decoder.md R118, 60_exceptions.md R165: an accepted DECODE of any slice completes with STATUS OK and a value
and a length within the budget; it writes the four result registers, no memory, and raises nothing. -/
def Obligations.DecodeAlwaysCompletesOk : Prop :=
  ∀ (w : Width) (src : Slice) (s : State), s.accepts = true →
    ∃ v n, n ≤ w.maxLen ∧ v.width = w ∧
      exec (decodeOf w src) s =
        .next { s with status := some .ok, value := .holds v, len := .holds n, resW := some w }

/-- The result depends only on the bytes consumed: another slice, in any state, that begins with the same bytes decodes
alike (the sentence of 41_buffer_decoder.md R112 "two slices with the same first n bytes decode alike", an inference the
spec marks as its own). -/
def Obligations.DecodeDependsOnlyOnConsumedBytes : Prop :=
  ∀ (w : Width) (src src' : Slice) (s s' t : State) (n : Nat), s.accepts = true → s'.accepts = true →
    exec (decodeOf w src) s = .next t → t.len = .holds n → 1 ≤ n → n ≤ src'.len →
    (∀ k, k < n → s'.memRead (src'.base + k) = s.memRead (src.base + k)) →
    ∃ t', exec (decodeOf w src') s' = .next t' ∧ t'.value = t.value ∧ t'.len = t.len

/-- 20_memory.md R49: DECODE is idempotent. -/
def Obligations.DecodeIsIdempotent : Prop :=
  ∀ (w : Width) (src : Slice) (s t : State), exec (decodeOf w src) s = .next t → exec (decodeOf w src) t = .next t

/-! ### The Stream Decoder -/

/-- 42_stream_decoder.md R132: READ is accepted only by an idle, unfaulted block; it sets PHASE, initialises the stream
decoder whatever it held, and changes nothing else. That a READ issued while it is not accepted is dropped without effect
is the model's choice, log entry 8. -/
def Obligations.ReadStarts : Prop :=
  ∀ (w : Width) (k : SourceId) (s : State),
    (s.accepts = true → exec (readOf w k) s = .next { s with
      phase := .readBusy, sdState := .awaitFirstByte, sdN := 0, sdMag := 0, sdSign := false, sdW := w,
      sdSource := k }) ∧
    (s.accepts = false → exec (readOf w k) s = .next s)

/-- 42_stream_decoder.md R134: the first byte. -/
def Obligations.ReadStepOnFirstByte : Prop :=
  ∀ (s : State) (rest : List Input) (b : Byte) (as : List Answer), s.Inv → s.phase = .readBusy →
    s.sdState = .awaitFirstByte → s.inputs = .answer :: rest → (s.source s.sdSource).pending = .byte b :: as →
    (b.getLsbD 7 = true → step s = .next { s with
      inputs := rest, sources := ((s.setSource s.sdSource ⟨as, (s.source s.sdSource).pos + 1⟩).sources),
      sdState := .awaitContinuation, sdSign := b.getLsbD 6, sdMag := b.toNat % 2 ^ 6, sdN := 1 }) ∧
    (b.getLsbD 7 = false → ∃ t, step s = .next t ∧ t.inputs = rest ∧
      ReadCompleted s t .ok (.holds (wrapVal s.sdW (signedValue (b.getLsbD 6) (b.toNat % 2 ^ 6)))))

/-- 42_stream_decoder.md R135, with R139 and R136 that it leads to: a continuation byte. That an out-of-range magnitude is
reduced modulo 2^W (R139) is the spec's decision D8 and the model's choice, log entry 7. -/
def Obligations.ReadStepOnContinuationByte : Prop :=
  ∀ (s : State) (rest : List Input) (b : Byte) (as : List Answer), s.Inv → s.phase = .readBusy →
    s.sdState = .awaitContinuation → s.inputs = .answer :: rest → (s.source s.sdSource).pending = .byte b :: as →
    (b.getLsbD 7 = true → s.sdN + 1 < s.sdW.maxLen → step s = .next { s with
      inputs := rest, sources := ((s.setSource s.sdSource ⟨as, (s.source s.sdSource).pos + 1⟩).sources),
      sdMag := s.sdMag ||| ((b.toNat % 2 ^ 7) <<< (6 + 7 * (s.sdN - 1))), sdN := s.sdN + 1 }) ∧
    (b.getLsbD 7 = true → s.sdN + 1 = s.sdW.maxLen → ∃ t, step s = .next t ∧ t.inputs = rest ∧
      ReadCompleted s t .overflow .absent) ∧
    (b.getLsbD 7 = false → ∃ t, step s = .next t ∧ t.inputs = rest ∧
      ReadCompleted s t .ok (.holds (wrapVal s.sdW
        (signedValue s.sdSign (s.sdMag ||| ((b.toNat % 2 ^ 7) <<< (6 + 7 * (s.sdN - 1))))))))

/-- 42_stream_decoder.md R138: End in either waiting state is truncation, with at most MAXLEN-1 bytes consumed, none of
them given back. -/
def Obligations.ReadStepOnEndTruncates : Prop :=
  ∀ (s : State) (rest : List Input) (as : List Answer), s.Inv → s.phase = .readBusy →
    s.inputs = .answer :: rest → (s.source s.sdSource).pending = .endOfInput :: as →
    s.sdN ≤ s.sdW.maxLen - 1 ∧
    ∃ t, step s = .next t ∧ t.inputs = rest ∧ ReadCompleted s t .truncated .absent ∧
      SourceGave s t s.sdSource .endOfInput as

/-- 20_memory.md R46: a step of a READ takes one answer from the bound source and none from another; a byte moves the
position by 1, End not at all. -/
def Obligations.ReadStepTakesOneAnswer : Prop :=
  ∀ (s : State) (rest : List Input) (a : Answer) (as : List Answer), s.Inv → s.phase = .readBusy →
    s.inputs = .answer :: rest → (s.source s.sdSource).pending = a :: as →
    ∃ t, step s = .next t ∧ SourceGave s t s.sdSource a as

/-- 42_stream_decoder.md R137, 60_exceptions.md R175: until its source answers, or reset, a READ is held: no input of
another kind changes a register of the block, a command issued meanwhile is not accepted (that it is dropped is the
model's choice, log entry 8), and a source that has nothing to answer gives no step. -/
def Obligations.ReadIsHeldWithoutAnswer : Prop :=
  (∀ s t i rest, s.phase = .readBusy → s.inputs = i :: rest → i ≠ .reset →
    (i = .answer → (s.source s.sdSource).pending = []) → step s = .next t → SameBlock s t) ∧
  (∀ s rest, s.phase = .readBusy → s.inputs = .answer :: rest → (s.source s.sdSource).pending = [] →
    step s = .next { s with inputs := rest }) ∧
  (∀ s i r rest, s.phase = .readBusy → s.inputs = .issue r :: rest → decode r = .instr i →
    step s = .next { s with inputs := rest }) ∧
  (∀ s, s.inputs = [] → step s = .next s)

/-- A READ whose source answers every request completes after at most MAXLEN answers, with exactly one of OK, TRUNCATED,
OVERFLOW, and in each case the source has moved by the bytes consumed (the sentences of 42_stream_decoder.md R144 and R142,
inferences the spec marks as its own). Its source answers every request if it has MAXLEN answers to give, or fewer with one
among them that ends the READ. An out-of-range magnitude is reduced (D8, log entry 7). -/
def Obligations.ReadCompletesWithinTheBudget : Prop :=
  ∀ (w : Width) (k : SourceId) (s : State), s.Inv → s.accepts = true → AnswersSuffice w (s.source k).pending →
    ∃ n t rest bs, 1 ≤ n ∧ n ≤ w.maxLen ∧ Host.Core.run core (n + 1) (readScript s w k n) = .next t ∧
      (∀ j, j < n → ∃ u, Host.Core.run core (j + 1) (readScript s w k n) = .next u ∧ u.phase = .readBusy) ∧
      t.phase = .idle ∧ t.resW = some w ∧ t.len = .absent ∧ (t.source k).pending = rest ∧
      (t.source k).pos = (s.source k).pos + bs.length ∧
      ((t.status = some .ok ∧ t.value = .holds (wrapVal w (signedValue (wireSign bs) (wireMag bs))) ∧
          bs.length = n ∧ Terminated bs ∧ (s.source k).pending = bs.map .byte ++ rest) ∨
       (t.status = some .truncated ∧ t.value = .absent ∧
          bs.length = n - 1 ∧ Unterminated bs ∧ (s.source k).pending = bs.map .byte ++ .endOfInput :: rest) ∨
       (t.status = some .overflow ∧ t.value = .absent ∧
          bs.length = n ∧ n = w.maxLen ∧ Unterminated bs ∧ (s.source k).pending = bs.map .byte ++ rest))

/-- A sequence that terminates within 5 bytes with a magnitude below 2^31 reads as the same integer, with the same
consumption, by both variants (the second sentence of 42_stream_decoder.md R145, an inference the spec marks as its own). -/
def Obligations.ReadVariantsAgree : Prop :=
  ∀ (k : SourceId) (s : State) (bs : List Byte) (as : List Answer), s.Inv → s.accepts = true → Terminated bs →
    bs.length ≤ 5 → wireMag bs < 2 ^ 31 → (s.source k).pending = bs.map .byte ++ as →
    ∃ t u x y, Host.Core.run core (bs.length + 1) (readScript s .w32 k bs.length) = .next t ∧
      Host.Core.run core (bs.length + 1) (readScript s .w64 k bs.length) = .next u ∧
      t.status = some .ok ∧ u.status = some .ok ∧ t.value = .holds (.v32 x) ∧ u.value = .holds (.v64 y) ∧
      x.toInt = y.toInt ∧ t.source k = u.source k ∧ (t.source k).pending = as

/-! ### The three functions together -/

/-- 40_encoder.md R94: what ENCODE wrote is decoded, by DECODE of any slice that begins with those bytes and by READ from
any source that gives them, to the same value and the same length. -/
def Obligations.RoundTripThroughBothDecoders : Prop :=
  ∀ (w : Width) (v : Int) (dst : Slice) (s t : State) (n : Nat), w.fits v = true → s.Inv →
    s.accepts = true → w.maxLen ≤ dst.len → exec (encodeOf w v dst) s = .next t → t.len = .holds n →
    (∀ (src : Slice) (u : State), u.accepts = true → SliceHolds u src (firstBytes t dst n) →
      exec (decodeOf w src) u = .next { u with
        status := some .ok, value := .holds (wrapVal w v), len := .holds n, resW := some w }) ∧
    (∀ (k : SourceId) (u : State) (as : List Answer), u.Inv → u.accepts = true →
      (u.source k).pending = (firstBytes t dst n).map .byte ++ as →
      ∃ x, Host.Core.run core (n + 1) (readScript u w k n) = .next x ∧ x.phase = .idle ∧ x.status = some .ok ∧
        x.value = .holds (wrapVal w v) ∧ (x.source k).pending = as ∧ (x.source k).pos = (u.source k).pos + n)

/-- On the bytes a DECODE consumed, a READ of the same width gives the same value and consumes as many; where the DECODE
was capped, it gives OVERFLOW instead (the sentences of 41_buffer_decoder.md R120, an inference the spec marks as its
own). -/
def Obligations.BufferAndStreamDecodersAgree : Prop :=
  ∀ (w : Width) (src : Slice) (s t u : State) (n : Nat) (k : SourceId) (as : List Answer), s.accepts = true →
    exec (decodeOf w src) s = .next t → t.len = .holds n → 1 ≤ n → u.Inv → u.accepts = true →
    (u.source k).pending = (firstBytes s src n).map .byte ++ as →
    ∃ x, Host.Core.run core (n + 1) (readScript u w k n) = .next x ∧ x.phase = .idle ∧
      (x.source k).pending = as ∧ (x.source k).pos = (u.source k).pos + n ∧
      ((s.memRead (src.base + (n - 1))).getLsbD 7 = false → x.status = some .ok ∧ x.value = t.value) ∧
      ((s.memRead (src.base + (n - 1))).getLsbD 7 = true →
        n = w.maxLen ∧ x.status = some .overflow ∧ x.value = .absent)

/-! ### Faults, reset and the host -/

/-- 10_state.md R27, R28: while PHASE is not IDLE or FAULT is not NONE no command is accepted, a reserved one included: it
has no effect (that it is dropped and not kept for later is the model's choice, log entry 8). -/
def Obligations.NoCommandIsAcceptedWhileBusyOrFaulted : Prop :=
  ∀ s : State, s.phase ≠ .idle ∨ s.fault ≠ .none →
    (∀ i, exec i s = .next s) ∧
    (∀ r rest c, s.inputs = .issue r :: rest → decode r = .illegalCommand c → step s = .next { s with inputs := rest })

/-- 60_exceptions.md R162, R160: a reserved CMD word issued to an idle, unfaulted block records IllegalCommand and the
word, and has no other effect. -/
def Obligations.ReservedCommandFaults : Prop :=
  ∀ (s : State) (r : Request) (rest : List Input), s.inputs = .issue r :: rest → s.phase = .idle → s.fault = .none →
    (r.cmd.extractLsb' 3 5 ≠ 0#5 ∨ r.cmd.extractLsb' 0 2 = 0b11#2) →
    step s = .next { s with inputs := rest, fault := .illegalCommand, faultInfo := some (.cmd r.cmd) }

/-- 10_state.md R28: a fault is sticky: no input but reset changes FAULT or FAULT_INFO, or any other register, of a faulted
block. -/
def Obligations.FaultsAreSticky : Prop :=
  ∀ s t, s.Inv → s.fault ≠ .none → (∀ rest, s.inputs ≠ .reset :: rest) → step s = .next t → SameBlock s t

/-- 10_state.md R28: only the two fault rules, and reset, write FAULT and FAULT_INFO, and each records what it must. -/
def Obligations.OnlyTheFaultRulesRaiseFaults : Prop :=
  ∀ s t, step s = .next t → (t.fault ≠ s.fault ∨ t.faultInfo ≠ s.faultInfo) →
    (∃ rest, s.inputs = .reset :: rest) ∨
    (∃ r rest, s.inputs = .issue r :: rest ∧ s.accepts = true ∧
      ((decode r = .illegalCommand r.cmd ∧ t.fault = .illegalCommand ∧ t.faultInfo = some (.cmd r.cmd)) ∨
       (∃ dst, ((∃ v, decode r = .instr (.encode32 v dst)) ∧ dst.len < 5 ∨
                (∃ v, decode r = .instr (.encode64 v dst)) ∧ dst.len < 10) ∧
          t.fault = .dstTooSmall ∧ t.faultInfo = some (.cap dst.len))))

/-- 10_state.md R34: of the host's byte stores the block writes only the destination of an ENCODE: a step that is no host
write changes memory only by an accepted ENCODE, and only below its capacity. -/
def Obligations.OnlyEncodeWritesMemory : Prop :=
  ∀ s t, step s = .next t → (∀ a b rest, s.inputs ≠ .hostWrite a b :: rest) →
    ∀ a, t.memRead a ≠ s.memRead a →
      ∃ r rest dst, s.inputs = .issue r :: rest ∧ s.accepts = true ∧
        ((∃ v, decode r = .instr (.encode32 v dst)) ∨ (∃ v, decode r = .instr (.encode64 v dst))) ∧
        dst.base ≤ a ∧ a < dst.base + dst.len

/-- 70_reset_and_hazards.md R180, R181: reset, during a READ too, leaves PHASE IDLE, FAULT NONE and no value in FAULT_INFO
and the result registers, touches no host-owned store, and is the only input that clears a fault. Nothing is said of the
stream-decoder registers. -/
def Obligations.ResetClearsTheBlockOnly : Prop :=
  (∀ s rest, s.inputs = .reset :: rest → ∃ t, step s = .next t ∧ t.inputs = rest ∧ t.phase = .idle ∧
    t.fault = .none ∧ t.faultInfo = none ∧ t.status = none ∧ t.value = .noValue ∧ t.len = .noValue ∧ t.resW = none ∧
    t.mem = s.mem ∧ t.sources = s.sources) ∧
  (∀ s t, step s = .next t → s.fault ≠ .none → t.fault = .none → ∃ rest, s.inputs = .reset :: rest)

/-- 10_state.md R35: the reset values the spec gives; and the block accepts a command at once (70 R182). -/
def Obligations.ResetStateIsAsSpecified : Prop :=
  State.reset.phase = .idle ∧ State.reset.fault = .none ∧ State.reset.faultInfo = none ∧ State.reset.status = none ∧
  State.reset.value = .noValue ∧ State.reset.len = .noValue ∧ State.reset.resW = none ∧ State.reset.accepts = true

/-- 10_state.md R25 (decision D14, 93 U7): a host read of a result register before any command has completed yields no value
and is marked as a fault of the host's program, while the block goes on unchanged; so is a read of VALUE while absent,
which 70_reset_and_hazards.md R185 forbids after a READ failure (that it is marked, and after an ENCODE too, is the
model's, log entry 6, as are the fields of the datum and of the mark). -/
def Obligations.HostReadOfNoValueFaults : Prop :=
  ∀ (s : State) (r : HostReg) (rest : List Input), s.inputs = .hostRead r :: rest →
    (r = .status → s.status = none → step s = .next { s with
      inputs := rest, hostData := some (.status none),
      hostFault := s.hostFault.or (some (.beforeCompletion .status)) }) ∧
    (r = .value → s.value = .noValue → step s = .next { s with
      inputs := rest, hostData := some (.value .noValue),
      hostFault := s.hostFault.or (some (.beforeCompletion .value)) }) ∧
    (r = .len → s.len = .noValue → step s = .next { s with
      inputs := rest, hostData := some (.len .noValue),
      hostFault := s.hostFault.or (some (.beforeCompletion .len)) }) ∧
    (r = .resW → s.resW = none → step s = .next { s with
      inputs := rest, hostData := some (.resW none),
      hostFault := s.hostFault.or (some (.beforeCompletion .resW)) }) ∧
    (r = .record → (s.status = none ∨ s.value = .noValue ∨ s.len = .noValue ∨ s.resW = none) → step s = .next { s with
      inputs := rest, hostData := some (.record s.status s.value s.len s.resW),
      hostFault := s.hostFault.or (some (.beforeCompletion .record)) }) ∧
    (r = .value → s.value = .absent → step s = .next { s with
      inputs := rest, hostData := some (.value .absent), hostFault := s.hostFault.or (some .valueAbsent) })

/-- 10_state.md R24, R28, 60_exceptions.md R176: the host reads each register directly and is given what it holds, FAULT_INFO
without value and LEN absent as such, and a read changes nothing but what the host has read. The model's own are, by log
entry 6: the field that holds what was read, that those two reads are no fault of the host, and that a read while PHASE is
READ_BUSY, which 70_reset_and_hazards.md R185 tells the host not to make, gives what the register still holds. -/
def Obligations.HostReadGivesTheRegister : Prop :=
  ∀ (s : State) (r : HostReg) (rest : List Input), s.inputs = .hostRead r :: rest →
    (r = .phase → step s = .next { s with inputs := rest, hostData := some (.phase s.phase) }) ∧
    (r = .fault → step s = .next { s with inputs := rest, hostData := some (.fault s.fault) }) ∧
    (r = .faultInfo → step s = .next { s with inputs := rest, hostData := some (.faultInfo s.faultInfo) }) ∧
    (∀ st, r = .status → s.status = some st →
      step s = .next { s with inputs := rest, hostData := some (.status (some st)) }) ∧
    (∀ v, r = .value → s.value = .holds v →
      step s = .next { s with inputs := rest, hostData := some (.value (.holds v)) }) ∧
    (∀ n, r = .len → s.len = .holds n →
      step s = .next { s with inputs := rest, hostData := some (.len (.holds n)) }) ∧
    (r = .len → s.len = .absent → step s = .next { s with inputs := rest, hostData := some (.len .absent) }) ∧
    (∀ w, r = .resW → s.resW = some w →
      step s = .next { s with inputs := rest, hostData := some (.resW (some w)) }) ∧
    (r = .record → s.status ≠ none → s.value ≠ .noValue → s.len ≠ .noValue → s.resW ≠ none →
      step s = .next { s with
        inputs := rest, hostData := some (.record s.status s.value s.len s.resW) })

/-- The mark of a fault of the host's program is sticky (93_implementation_defined.md: `fault` is "a sticky failure mark"):
no step clears or replaces it, and only a register read of the host sets it. That reset does not clear it either is the
model's choice, log entry 6. -/
def Obligations.HostFaultIsSticky : Prop :=
  ∀ s t, step s = .next t →
    (∀ f, s.hostFault = some f → t.hostFault = some f) ∧
    (t.hostFault ≠ s.hostFault → ∃ r rest, s.inputs = .hostRead r :: rest ∧
      t.hostFault = s.hostReadFault r ∧ s.hostReadFault r ≠ none)

/-- 40_encoder.md R90: an ENCODE integer outside the variant's range is refused, never wrapped or encoded. That the refusal
comes whether or not the block would have accepted the command is the model's choice, log entry 14. -/
def Obligations.OutOfRangeValueIsRefused : Prop :=
  ∀ (s : State) (r : Request) (rest : List Input), s.inputs = .issue r :: rest →
    (r.cmd = 0x00#8 → (r.value < -2 ^ 31 ∨ 2 ^ 31 ≤ r.value) → step s = .refused (.valueOutOfRange r.value)) ∧
    (r.cmd = 0x04#8 → (r.value < -2 ^ 63 ∨ 2 ^ 63 ≤ r.value) → step s = .refused (.valueOutOfRange r.value))

/-- 20_memory.md R53: another agent taking from the source of a running READ is refused; from a source no READ is using it
takes the next answer and touches nothing of the block. -/
def Obligations.SharedSourceIsRefused : Prop :=
  ∀ (s : State) (k : SourceId) (rest : List Input), s.inputs = .agentTake k :: rest →
    (s.phase = .readBusy → s.sdSource = k → step s = .refused (.sourceInUse k)) ∧
    (∀ a as, (s.phase = .idle ∨ s.sdSource ≠ k) → Sources.wf s.sources = true → (s.source k).pending = a :: as →
      ∃ t, step s = .next t ∧ SameBlock s t ∧ t.mem = s.mem ∧ SourceGave s t k a as)

/-- 60_exceptions.md R164: the codes of STATUS and FAULT; STATUS code 3 is no status. -/
def Obligations.StatusAndFaultCodes : Prop :=
  Status.ok.code = 0 ∧ Status.truncated.code = 1 ∧ Status.overflow.code = 2 ∧ (∀ st : Status, st.code ≠ 3) ∧
  FaultReg.none.code = 0 ∧ FaultReg.illegalCommand.code = 1 ∧ FaultReg.dstTooSmall.code = 2

/-- The host and the environment act on the host-owned stores only (10_state.md R34): the byte the host writes reads as
written and every other byte as before; a source that is given further answers keeps its position and what it had to give
(20_memory.md R45), and no other source changes. That these acts are inputs is the model's choice, log entry 5. -/
def Obligations.HostStoresChangeAsAsked : Prop :=
  (∀ s a b rest, s.Inv → s.inputs = .hostWrite a b :: rest → ∃ t, step s = .next t ∧
    t = { s with inputs := rest, mem := t.mem } ∧ t.memRead a = b ∧ ∀ a', a' ≠ a → t.memRead a' = s.memRead a') ∧
  (∀ s k as rest, s.Inv → s.inputs = .supply k as :: rest → ∃ t, step s = .next t ∧
    t = { s with inputs := rest, sources := t.sources } ∧ (t.source k).pending = (s.source k).pending ++ as ∧
    (t.source k).pos = (s.source k).pos ∧ ∀ j, j ≠ k → t.source j = s.source j)

/-! ### The invariant -/

/-- The reset state meets the invariant. -/
def Obligations.ResetMeetsTheInvariant : Prop := State.reset.Inv

/-- Every step keeps the invariant, whatever the host, the sources and other agents do: the canonical form of the stores,
FAULT with its FAULT_INFO (10_state.md R28), a faulted block idle, the result registers one command's record or without
value (R24, R25), and the stream decoder of a running READ in range (R30, an inference the spec marks as its own). -/
def Obligations.EveryStepKeepsTheInvariant : Prop := ∀ s t, s.Inv → step s = .next t → t.Inv
end

