-- ==== Sys2Proof/Laws/State.lean ====
section
/-! SUPPORT. What each field is after each update of the state: one lemma per field per update. -/

namespace Sys2Proof.Machine

section
variable (s : State)

@[simp] theorem State.memWrite_phase (a : Nat) (b : Byte) : (s.memWrite a b).phase = s.phase := rfl
@[simp] theorem State.memWrite_fault (a : Nat) (b : Byte) : (s.memWrite a b).fault = s.fault := rfl
@[simp] theorem State.memWrite_faultInfo (a : Nat) (b : Byte) : (s.memWrite a b).faultInfo = s.faultInfo := rfl
@[simp] theorem State.memWrite_status (a : Nat) (b : Byte) : (s.memWrite a b).status = s.status := rfl
@[simp] theorem State.memWrite_value (a : Nat) (b : Byte) : (s.memWrite a b).value = s.value := rfl
@[simp] theorem State.memWrite_len (a : Nat) (b : Byte) : (s.memWrite a b).len = s.len := rfl
@[simp] theorem State.memWrite_resW (a : Nat) (b : Byte) : (s.memWrite a b).resW = s.resW := rfl
@[simp] theorem State.memWrite_sdState (a : Nat) (b : Byte) : (s.memWrite a b).sdState = s.sdState := rfl
@[simp] theorem State.memWrite_sdN (a : Nat) (b : Byte) : (s.memWrite a b).sdN = s.sdN := rfl
@[simp] theorem State.memWrite_sdSign (a : Nat) (b : Byte) : (s.memWrite a b).sdSign = s.sdSign := rfl
@[simp] theorem State.memWrite_sdMag (a : Nat) (b : Byte) : (s.memWrite a b).sdMag = s.sdMag := rfl
@[simp] theorem State.memWrite_sdW (a : Nat) (b : Byte) : (s.memWrite a b).sdW = s.sdW := rfl
@[simp] theorem State.memWrite_sdSource (a : Nat) (b : Byte) : (s.memWrite a b).sdSource = s.sdSource := rfl
@[simp] theorem State.memWrite_mem (a : Nat) (b : Byte) : (s.memWrite a b).mem = store Config.unlistedByte a b s.mem := rfl
@[simp] theorem State.memWrite_sources (a : Nat) (b : Byte) : (s.memWrite a b).sources = s.sources := rfl
@[simp] theorem State.memWrite_inputs (a : Nat) (b : Byte) : (s.memWrite a b).inputs = s.inputs := rfl
@[simp] theorem State.memWrite_hostData (a : Nat) (b : Byte) : (s.memWrite a b).hostData = s.hostData := rfl
@[simp] theorem State.memWrite_hostFault (a : Nat) (b : Byte) : (s.memWrite a b).hostFault = s.hostFault := rfl
@[simp] theorem State.memWrite_freeCount (a : Nat) (b : Byte) : (s.memWrite a b).freeCount = s.freeCount := rfl

@[simp] theorem State.setSource_phase (k : SourceId) (src : Source) : (s.setSource k src).phase = s.phase := rfl
@[simp] theorem State.setSource_fault (k : SourceId) (src : Source) : (s.setSource k src).fault = s.fault := rfl
@[simp] theorem State.setSource_faultInfo (k : SourceId) (src : Source) : (s.setSource k src).faultInfo = s.faultInfo := rfl
@[simp] theorem State.setSource_status (k : SourceId) (src : Source) : (s.setSource k src).status = s.status := rfl
@[simp] theorem State.setSource_value (k : SourceId) (src : Source) : (s.setSource k src).value = s.value := rfl
@[simp] theorem State.setSource_len (k : SourceId) (src : Source) : (s.setSource k src).len = s.len := rfl
@[simp] theorem State.setSource_resW (k : SourceId) (src : Source) : (s.setSource k src).resW = s.resW := rfl
@[simp] theorem State.setSource_sdState (k : SourceId) (src : Source) : (s.setSource k src).sdState = s.sdState := rfl
@[simp] theorem State.setSource_sdN (k : SourceId) (src : Source) : (s.setSource k src).sdN = s.sdN := rfl
@[simp] theorem State.setSource_sdSign (k : SourceId) (src : Source) : (s.setSource k src).sdSign = s.sdSign := rfl
@[simp] theorem State.setSource_sdMag (k : SourceId) (src : Source) : (s.setSource k src).sdMag = s.sdMag := rfl
@[simp] theorem State.setSource_sdW (k : SourceId) (src : Source) : (s.setSource k src).sdW = s.sdW := rfl
@[simp] theorem State.setSource_sdSource (k : SourceId) (src : Source) : (s.setSource k src).sdSource = s.sdSource := rfl
@[simp] theorem State.setSource_mem (k : SourceId) (src : Source) : (s.setSource k src).mem = s.mem := rfl
@[simp] theorem State.setSource_sources (k : SourceId) (src : Source) : (s.setSource k src).sources = store Source.silent k src s.sources := rfl
@[simp] theorem State.setSource_inputs (k : SourceId) (src : Source) : (s.setSource k src).inputs = s.inputs := rfl
@[simp] theorem State.setSource_hostData (k : SourceId) (src : Source) : (s.setSource k src).hostData = s.hostData := rfl
@[simp] theorem State.setSource_hostFault (k : SourceId) (src : Source) : (s.setSource k src).hostFault = s.hostFault := rfl
@[simp] theorem State.setSource_freeCount (k : SourceId) (src : Source) : (s.setSource k src).freeCount = s.freeCount := rfl

@[simp] theorem State.raiseFault_phase (f : FaultReg) (i : FaultInfo) : (s.raiseFault f i).phase = s.phase := rfl
@[simp] theorem State.raiseFault_fault (f : FaultReg) (i : FaultInfo) : (s.raiseFault f i).fault = f := rfl
@[simp] theorem State.raiseFault_faultInfo (f : FaultReg) (i : FaultInfo) : (s.raiseFault f i).faultInfo = some i := rfl
@[simp] theorem State.raiseFault_status (f : FaultReg) (i : FaultInfo) : (s.raiseFault f i).status = s.status := rfl
@[simp] theorem State.raiseFault_value (f : FaultReg) (i : FaultInfo) : (s.raiseFault f i).value = s.value := rfl
@[simp] theorem State.raiseFault_len (f : FaultReg) (i : FaultInfo) : (s.raiseFault f i).len = s.len := rfl
@[simp] theorem State.raiseFault_resW (f : FaultReg) (i : FaultInfo) : (s.raiseFault f i).resW = s.resW := rfl
@[simp] theorem State.raiseFault_sdState (f : FaultReg) (i : FaultInfo) : (s.raiseFault f i).sdState = s.sdState := rfl
@[simp] theorem State.raiseFault_sdN (f : FaultReg) (i : FaultInfo) : (s.raiseFault f i).sdN = s.sdN := rfl
@[simp] theorem State.raiseFault_sdSign (f : FaultReg) (i : FaultInfo) : (s.raiseFault f i).sdSign = s.sdSign := rfl
@[simp] theorem State.raiseFault_sdMag (f : FaultReg) (i : FaultInfo) : (s.raiseFault f i).sdMag = s.sdMag := rfl
@[simp] theorem State.raiseFault_sdW (f : FaultReg) (i : FaultInfo) : (s.raiseFault f i).sdW = s.sdW := rfl
@[simp] theorem State.raiseFault_sdSource (f : FaultReg) (i : FaultInfo) : (s.raiseFault f i).sdSource = s.sdSource := rfl
@[simp] theorem State.raiseFault_mem (f : FaultReg) (i : FaultInfo) : (s.raiseFault f i).mem = s.mem := rfl
@[simp] theorem State.raiseFault_sources (f : FaultReg) (i : FaultInfo) : (s.raiseFault f i).sources = s.sources := rfl
@[simp] theorem State.raiseFault_inputs (f : FaultReg) (i : FaultInfo) : (s.raiseFault f i).inputs = s.inputs := rfl
@[simp] theorem State.raiseFault_hostData (f : FaultReg) (i : FaultInfo) : (s.raiseFault f i).hostData = s.hostData := rfl
@[simp] theorem State.raiseFault_hostFault (f : FaultReg) (i : FaultInfo) : (s.raiseFault f i).hostFault = s.hostFault := rfl
@[simp] theorem State.raiseFault_freeCount (f : FaultReg) (i : FaultInfo) : (s.raiseFault f i).freeCount = s.freeCount := rfl

@[simp] theorem State.complete_phase (st : Status) (v : Option Val) (n : Option Nat) (w : Width) : (s.complete st v n w).phase = s.phase := rfl
@[simp] theorem State.complete_fault (st : Status) (v : Option Val) (n : Option Nat) (w : Width) : (s.complete st v n w).fault = s.fault := rfl
@[simp] theorem State.complete_faultInfo (st : Status) (v : Option Val) (n : Option Nat) (w : Width) : (s.complete st v n w).faultInfo = s.faultInfo := rfl
@[simp] theorem State.complete_status (st : Status) (v : Option Val) (n : Option Nat) (w : Width) : (s.complete st v n w).status = some st := rfl
@[simp] theorem State.complete_value (st : Status) (v : Option Val) (n : Option Nat) (w : Width) : (s.complete st v n w).value = ResultReg.ofOption v := rfl
@[simp] theorem State.complete_len (st : Status) (v : Option Val) (n : Option Nat) (w : Width) : (s.complete st v n w).len = ResultReg.ofOption n := rfl
@[simp] theorem State.complete_resW (st : Status) (v : Option Val) (n : Option Nat) (w : Width) : (s.complete st v n w).resW = some w := rfl
@[simp] theorem State.complete_sdState (st : Status) (v : Option Val) (n : Option Nat) (w : Width) : (s.complete st v n w).sdState = s.sdState := rfl
@[simp] theorem State.complete_sdN (st : Status) (v : Option Val) (n : Option Nat) (w : Width) : (s.complete st v n w).sdN = s.sdN := rfl
@[simp] theorem State.complete_sdSign (st : Status) (v : Option Val) (n : Option Nat) (w : Width) : (s.complete st v n w).sdSign = s.sdSign := rfl
@[simp] theorem State.complete_sdMag (st : Status) (v : Option Val) (n : Option Nat) (w : Width) : (s.complete st v n w).sdMag = s.sdMag := rfl
@[simp] theorem State.complete_sdW (st : Status) (v : Option Val) (n : Option Nat) (w : Width) : (s.complete st v n w).sdW = s.sdW := rfl
@[simp] theorem State.complete_sdSource (st : Status) (v : Option Val) (n : Option Nat) (w : Width) : (s.complete st v n w).sdSource = s.sdSource := rfl
@[simp] theorem State.complete_mem (st : Status) (v : Option Val) (n : Option Nat) (w : Width) : (s.complete st v n w).mem = s.mem := rfl
@[simp] theorem State.complete_sources (st : Status) (v : Option Val) (n : Option Nat) (w : Width) : (s.complete st v n w).sources = s.sources := rfl
@[simp] theorem State.complete_inputs (st : Status) (v : Option Val) (n : Option Nat) (w : Width) : (s.complete st v n w).inputs = s.inputs := rfl
@[simp] theorem State.complete_hostData (st : Status) (v : Option Val) (n : Option Nat) (w : Width) : (s.complete st v n w).hostData = s.hostData := rfl
@[simp] theorem State.complete_hostFault (st : Status) (v : Option Val) (n : Option Nat) (w : Width) : (s.complete st v n w).hostFault = s.hostFault := rfl
@[simp] theorem State.complete_freeCount (st : Status) (v : Option Val) (n : Option Nat) (w : Width) : (s.complete st v n w).freeCount = s.freeCount := rfl

@[simp] theorem State.startRead_phase (w : Width) (k : SourceId) : (s.startRead w k).phase = .readBusy := rfl
@[simp] theorem State.startRead_fault (w : Width) (k : SourceId) : (s.startRead w k).fault = s.fault := rfl
@[simp] theorem State.startRead_faultInfo (w : Width) (k : SourceId) : (s.startRead w k).faultInfo = s.faultInfo := rfl
@[simp] theorem State.startRead_status (w : Width) (k : SourceId) : (s.startRead w k).status = s.status := rfl
@[simp] theorem State.startRead_value (w : Width) (k : SourceId) : (s.startRead w k).value = s.value := rfl
@[simp] theorem State.startRead_len (w : Width) (k : SourceId) : (s.startRead w k).len = s.len := rfl
@[simp] theorem State.startRead_resW (w : Width) (k : SourceId) : (s.startRead w k).resW = s.resW := rfl
@[simp] theorem State.startRead_sdState (w : Width) (k : SourceId) : (s.startRead w k).sdState = .awaitFirstByte := rfl
@[simp] theorem State.startRead_sdN (w : Width) (k : SourceId) : (s.startRead w k).sdN = 0 := rfl
@[simp] theorem State.startRead_sdSign (w : Width) (k : SourceId) : (s.startRead w k).sdSign = false := rfl
@[simp] theorem State.startRead_sdMag (w : Width) (k : SourceId) : (s.startRead w k).sdMag = 0 := rfl
@[simp] theorem State.startRead_sdW (w : Width) (k : SourceId) : (s.startRead w k).sdW = w := rfl
@[simp] theorem State.startRead_sdSource (w : Width) (k : SourceId) : (s.startRead w k).sdSource = k := rfl
@[simp] theorem State.startRead_mem (w : Width) (k : SourceId) : (s.startRead w k).mem = s.mem := rfl
@[simp] theorem State.startRead_sources (w : Width) (k : SourceId) : (s.startRead w k).sources = s.sources := rfl
@[simp] theorem State.startRead_inputs (w : Width) (k : SourceId) : (s.startRead w k).inputs = s.inputs := rfl
@[simp] theorem State.startRead_hostData (w : Width) (k : SourceId) : (s.startRead w k).hostData = s.hostData := rfl
@[simp] theorem State.startRead_hostFault (w : Width) (k : SourceId) : (s.startRead w k).hostFault = s.hostFault := rfl
@[simp] theorem State.startRead_freeCount (w : Width) (k : SourceId) : (s.startRead w k).freeCount = s.freeCount := rfl

@[simp] theorem State.finishRead_phase (st : Status) (v : Option Val) : (s.finishRead st v).phase = .idle := rfl
@[simp] theorem State.finishRead_fault (st : Status) (v : Option Val) : (s.finishRead st v).fault = s.fault := rfl
@[simp] theorem State.finishRead_faultInfo (st : Status) (v : Option Val) : (s.finishRead st v).faultInfo = s.faultInfo := rfl
@[simp] theorem State.finishRead_status (st : Status) (v : Option Val) : (s.finishRead st v).status = some st := rfl
@[simp] theorem State.finishRead_value (st : Status) (v : Option Val) : (s.finishRead st v).value = ResultReg.ofOption v := rfl
@[simp] theorem State.finishRead_len (st : Status) (v : Option Val) : (s.finishRead st v).len = .absent := rfl
@[simp] theorem State.finishRead_resW (st : Status) (v : Option Val) : (s.finishRead st v).resW = some s.sdW := rfl
@[simp] theorem State.finishRead_sdState (st : Status) (v : Option Val) : (s.finishRead st v).sdState = .done := rfl
@[simp] theorem State.finishRead_sdN (st : Status) (v : Option Val) : (s.finishRead st v).sdN = Config.freeSdN s.freeCount := rfl
@[simp] theorem State.finishRead_sdSign (st : Status) (v : Option Val) : (s.finishRead st v).sdSign = Config.freeSdSign s.freeCount := rfl
@[simp] theorem State.finishRead_sdMag (st : Status) (v : Option Val) : (s.finishRead st v).sdMag = Config.freeSdMag s.freeCount := rfl
@[simp] theorem State.finishRead_sdW (st : Status) (v : Option Val) : (s.finishRead st v).sdW = Config.freeSdW s.freeCount := rfl
@[simp] theorem State.finishRead_sdSource (st : Status) (v : Option Val) : (s.finishRead st v).sdSource = s.sdSource := rfl
@[simp] theorem State.finishRead_mem (st : Status) (v : Option Val) : (s.finishRead st v).mem = s.mem := rfl
@[simp] theorem State.finishRead_sources (st : Status) (v : Option Val) : (s.finishRead st v).sources = s.sources := rfl
@[simp] theorem State.finishRead_inputs (st : Status) (v : Option Val) : (s.finishRead st v).inputs = s.inputs := rfl
@[simp] theorem State.finishRead_hostData (st : Status) (v : Option Val) : (s.finishRead st v).hostData = s.hostData := rfl
@[simp] theorem State.finishRead_hostFault (st : Status) (v : Option Val) : (s.finishRead st v).hostFault = s.hostFault := rfl
@[simp] theorem State.finishRead_freeCount (st : Status) (v : Option Val) : (s.finishRead st v).freeCount = s.freeCount + 1 := rfl

@[simp] theorem State.resetBlock_phase : s.resetBlock.phase = State.reset.phase := rfl
@[simp] theorem State.resetBlock_fault : s.resetBlock.fault = State.reset.fault := rfl
@[simp] theorem State.resetBlock_faultInfo : s.resetBlock.faultInfo = State.reset.faultInfo := rfl
@[simp] theorem State.resetBlock_status : s.resetBlock.status = State.reset.status := rfl
@[simp] theorem State.resetBlock_value : s.resetBlock.value = State.reset.value := rfl
@[simp] theorem State.resetBlock_len : s.resetBlock.len = State.reset.len := rfl
@[simp] theorem State.resetBlock_resW : s.resetBlock.resW = State.reset.resW := rfl
@[simp] theorem State.resetBlock_sdState : s.resetBlock.sdState = State.reset.sdState := rfl
@[simp] theorem State.resetBlock_sdN : s.resetBlock.sdN = State.reset.sdN := rfl
@[simp] theorem State.resetBlock_sdSign : s.resetBlock.sdSign = State.reset.sdSign := rfl
@[simp] theorem State.resetBlock_sdMag : s.resetBlock.sdMag = State.reset.sdMag := rfl
@[simp] theorem State.resetBlock_sdW : s.resetBlock.sdW = State.reset.sdW := rfl
@[simp] theorem State.resetBlock_sdSource : s.resetBlock.sdSource = State.reset.sdSource := rfl
@[simp] theorem State.resetBlock_mem : s.resetBlock.mem = s.mem := rfl
@[simp] theorem State.resetBlock_sources : s.resetBlock.sources = s.sources := rfl
@[simp] theorem State.resetBlock_inputs : s.resetBlock.inputs = s.inputs := rfl
@[simp] theorem State.resetBlock_hostData : s.resetBlock.hostData = s.hostData := rfl
@[simp] theorem State.resetBlock_hostFault : s.resetBlock.hostFault = s.hostFault := rfl
@[simp] theorem State.resetBlock_freeCount : s.resetBlock.freeCount = s.freeCount := rfl

@[simp] theorem State.giveHost_phase (d : HostDatum) : (s.giveHost d).phase = s.phase := rfl
@[simp] theorem State.giveHost_fault (d : HostDatum) : (s.giveHost d).fault = s.fault := rfl
@[simp] theorem State.giveHost_faultInfo (d : HostDatum) : (s.giveHost d).faultInfo = s.faultInfo := rfl
@[simp] theorem State.giveHost_status (d : HostDatum) : (s.giveHost d).status = s.status := rfl
@[simp] theorem State.giveHost_value (d : HostDatum) : (s.giveHost d).value = s.value := rfl
@[simp] theorem State.giveHost_len (d : HostDatum) : (s.giveHost d).len = s.len := rfl
@[simp] theorem State.giveHost_resW (d : HostDatum) : (s.giveHost d).resW = s.resW := rfl
@[simp] theorem State.giveHost_sdState (d : HostDatum) : (s.giveHost d).sdState = s.sdState := rfl
@[simp] theorem State.giveHost_sdN (d : HostDatum) : (s.giveHost d).sdN = s.sdN := rfl
@[simp] theorem State.giveHost_sdSign (d : HostDatum) : (s.giveHost d).sdSign = s.sdSign := rfl
@[simp] theorem State.giveHost_sdMag (d : HostDatum) : (s.giveHost d).sdMag = s.sdMag := rfl
@[simp] theorem State.giveHost_sdW (d : HostDatum) : (s.giveHost d).sdW = s.sdW := rfl
@[simp] theorem State.giveHost_sdSource (d : HostDatum) : (s.giveHost d).sdSource = s.sdSource := rfl
@[simp] theorem State.giveHost_mem (d : HostDatum) : (s.giveHost d).mem = s.mem := rfl
@[simp] theorem State.giveHost_sources (d : HostDatum) : (s.giveHost d).sources = s.sources := rfl
@[simp] theorem State.giveHost_inputs (d : HostDatum) : (s.giveHost d).inputs = s.inputs := rfl
@[simp] theorem State.giveHost_hostData (d : HostDatum) : (s.giveHost d).hostData = some d := rfl
@[simp] theorem State.giveHost_hostFault (d : HostDatum) : (s.giveHost d).hostFault = s.hostFault := rfl
@[simp] theorem State.giveHost_freeCount (d : HostDatum) : (s.giveHost d).freeCount = s.freeCount := rfl

@[simp] theorem State.markHostFault_phase (f : Option HostFault) : (s.markHostFault f).phase = s.phase := rfl
@[simp] theorem State.markHostFault_fault (f : Option HostFault) : (s.markHostFault f).fault = s.fault := rfl
@[simp] theorem State.markHostFault_faultInfo (f : Option HostFault) : (s.markHostFault f).faultInfo = s.faultInfo := rfl
@[simp] theorem State.markHostFault_status (f : Option HostFault) : (s.markHostFault f).status = s.status := rfl
@[simp] theorem State.markHostFault_value (f : Option HostFault) : (s.markHostFault f).value = s.value := rfl
@[simp] theorem State.markHostFault_len (f : Option HostFault) : (s.markHostFault f).len = s.len := rfl
@[simp] theorem State.markHostFault_resW (f : Option HostFault) : (s.markHostFault f).resW = s.resW := rfl
@[simp] theorem State.markHostFault_sdState (f : Option HostFault) : (s.markHostFault f).sdState = s.sdState := rfl
@[simp] theorem State.markHostFault_sdN (f : Option HostFault) : (s.markHostFault f).sdN = s.sdN := rfl
@[simp] theorem State.markHostFault_sdSign (f : Option HostFault) : (s.markHostFault f).sdSign = s.sdSign := rfl
@[simp] theorem State.markHostFault_sdMag (f : Option HostFault) : (s.markHostFault f).sdMag = s.sdMag := rfl
@[simp] theorem State.markHostFault_sdW (f : Option HostFault) : (s.markHostFault f).sdW = s.sdW := rfl
@[simp] theorem State.markHostFault_sdSource (f : Option HostFault) : (s.markHostFault f).sdSource = s.sdSource := rfl
@[simp] theorem State.markHostFault_mem (f : Option HostFault) : (s.markHostFault f).mem = s.mem := rfl
@[simp] theorem State.markHostFault_sources (f : Option HostFault) : (s.markHostFault f).sources = s.sources := rfl
@[simp] theorem State.markHostFault_inputs (f : Option HostFault) : (s.markHostFault f).inputs = s.inputs := rfl
@[simp] theorem State.markHostFault_hostData (f : Option HostFault) : (s.markHostFault f).hostData = s.hostData := rfl
@[simp] theorem State.markHostFault_hostFault (f : Option HostFault) : (s.markHostFault f).hostFault = s.hostFault.or f := rfl
@[simp] theorem State.markHostFault_freeCount (f : Option HostFault) : (s.markHostFault f).freeCount = s.freeCount := rfl

end

/-- Writing a slice changes memory alone. -/
theorem State.sliceWrite_eq (s : State) (sl : Slice) (i : Nat) (bs : List Byte) :
    s.sliceWrite sl i bs = { s with mem := (s.sliceWrite sl i bs).mem } := by
  induction bs generalizing s i with
  | nil => rfl
  | cons b bs ih => exact ih _ _

@[simp] theorem State.sliceWrite_phase (s : State) (sl : Slice) (i : Nat) (bs : List Byte) :
    (s.sliceWrite sl i bs).phase = s.phase := by
  rw [State.sliceWrite_eq]
@[simp] theorem State.sliceWrite_fault (s : State) (sl : Slice) (i : Nat) (bs : List Byte) :
    (s.sliceWrite sl i bs).fault = s.fault := by
  rw [State.sliceWrite_eq]
@[simp] theorem State.sliceWrite_faultInfo (s : State) (sl : Slice) (i : Nat) (bs : List Byte) :
    (s.sliceWrite sl i bs).faultInfo = s.faultInfo := by
  rw [State.sliceWrite_eq]
@[simp] theorem State.sliceWrite_status (s : State) (sl : Slice) (i : Nat) (bs : List Byte) :
    (s.sliceWrite sl i bs).status = s.status := by
  rw [State.sliceWrite_eq]
@[simp] theorem State.sliceWrite_value (s : State) (sl : Slice) (i : Nat) (bs : List Byte) :
    (s.sliceWrite sl i bs).value = s.value := by
  rw [State.sliceWrite_eq]
@[simp] theorem State.sliceWrite_len (s : State) (sl : Slice) (i : Nat) (bs : List Byte) :
    (s.sliceWrite sl i bs).len = s.len := by
  rw [State.sliceWrite_eq]
@[simp] theorem State.sliceWrite_resW (s : State) (sl : Slice) (i : Nat) (bs : List Byte) :
    (s.sliceWrite sl i bs).resW = s.resW := by
  rw [State.sliceWrite_eq]
@[simp] theorem State.sliceWrite_sdState (s : State) (sl : Slice) (i : Nat) (bs : List Byte) :
    (s.sliceWrite sl i bs).sdState = s.sdState := by
  rw [State.sliceWrite_eq]
@[simp] theorem State.sliceWrite_sdN (s : State) (sl : Slice) (i : Nat) (bs : List Byte) :
    (s.sliceWrite sl i bs).sdN = s.sdN := by
  rw [State.sliceWrite_eq]
@[simp] theorem State.sliceWrite_sdSign (s : State) (sl : Slice) (i : Nat) (bs : List Byte) :
    (s.sliceWrite sl i bs).sdSign = s.sdSign := by
  rw [State.sliceWrite_eq]
@[simp] theorem State.sliceWrite_sdMag (s : State) (sl : Slice) (i : Nat) (bs : List Byte) :
    (s.sliceWrite sl i bs).sdMag = s.sdMag := by
  rw [State.sliceWrite_eq]
@[simp] theorem State.sliceWrite_sdW (s : State) (sl : Slice) (i : Nat) (bs : List Byte) :
    (s.sliceWrite sl i bs).sdW = s.sdW := by
  rw [State.sliceWrite_eq]
@[simp] theorem State.sliceWrite_sdSource (s : State) (sl : Slice) (i : Nat) (bs : List Byte) :
    (s.sliceWrite sl i bs).sdSource = s.sdSource := by
  rw [State.sliceWrite_eq]
@[simp] theorem State.sliceWrite_sources (s : State) (sl : Slice) (i : Nat) (bs : List Byte) :
    (s.sliceWrite sl i bs).sources = s.sources := by
  rw [State.sliceWrite_eq]
@[simp] theorem State.sliceWrite_inputs (s : State) (sl : Slice) (i : Nat) (bs : List Byte) :
    (s.sliceWrite sl i bs).inputs = s.inputs := by
  rw [State.sliceWrite_eq]
@[simp] theorem State.sliceWrite_hostData (s : State) (sl : Slice) (i : Nat) (bs : List Byte) :
    (s.sliceWrite sl i bs).hostData = s.hostData := by
  rw [State.sliceWrite_eq]
@[simp] theorem State.sliceWrite_hostFault (s : State) (sl : Slice) (i : Nat) (bs : List Byte) :
    (s.sliceWrite sl i bs).hostFault = s.hostFault := by
  rw [State.sliceWrite_eq]
@[simp] theorem State.sliceWrite_freeCount (s : State) (sl : Slice) (i : Nat) (bs : List Byte) :
    (s.sliceWrite sl i bs).freeCount = s.freeCount := by
  rw [State.sliceWrite_eq]

end Sys2Proof.Machine
end

