-- ==== Sys2Proof/Laws/Stores.lean ====
section
/-! SUPPORT. The host's byte stores and byte sources: reading after writing, and the canonical form. -/

namespace Sys2Proof.Machine

section
variable {α : Type} [DecidableEq α] (d : α)

theorem canonical_cons {k : Nat} {v : α} {l : List (Nat × α)} :
    canonical d ((k, v) :: l) = true ↔ v ≠ d ∧ (∀ e ∈ l, k < e.1) ∧ canonical d l = true := by
  simp [canonical, and_assoc]

omit [DecidableEq α] in
/-- A key below every listed key has the default entry. -/
theorem lookup_of_all_above {k : Nat} {l : List (Nat × α)} (h : ∀ e ∈ l, k < e.1) : lookup d k l = d := by
  induction l with
  | nil => rfl
  | cons e l ih =>
    have hk : e.1 ≠ k := (h e (by simp)).ne'
    simp only [lookup, if_neg hk]
    exact ih fun e he => h e (by simp [he])

/-- Storing at `k` leaves every other key's entry alone. -/
theorem lookup_store_ne {k j : Nat} (v : α) (l : List (Nat × α)) (h : j ≠ k) :
    lookup d j (store d k v l) = lookup d j l := by
  induction l with
  | nil => by_cases hv : v = d <;> simp [store, lookup, hv, h.symm]
  | cons e l ih =>
    obtain ⟨k', v'⟩ := e
    by_cases h1 : k < k'
    · by_cases hv : v = d <;> simp [store, lookup, h1, hv, h.symm]
    · by_cases h2 : k = k'
      · subst h2
        by_cases hv : v = d <;> simp [store, lookup, hv, h.symm]
      · simp only [store, if_neg h1, if_neg h2, lookup, ih]

/-- In a canonical store the entry stored at `k` is read back. -/
theorem lookup_store_self {k : Nat} (v : α) {l : List (Nat × α)} (hl : canonical d l = true) :
    lookup d k (store d k v l) = v := by
  induction l with
  | nil => by_cases hv : v = d <;> simp [store, lookup, hv]
  | cons e l ih =>
    obtain ⟨k', v'⟩ := e
    obtain ⟨-, hall, hl'⟩ := (canonical_cons d).1 hl
    rcases lt_trichotomy k k' with h | rfl | h
    · by_cases hv : v = d
      · subst hv
        have hab : ∀ e ∈ l, k < e.1 := fun e he => h.trans (hall e he)
        simp [store, lookup, h, h.ne', lookup_of_all_above v hab]
      · simp [store, lookup, h, hv]
    · by_cases hv : v = d
      · subst hv
        simp [store, lookup_of_all_above v hall]
      · simp [store, lookup, hv]
    · simp [store, lookup, h.not_gt, h.ne, h.ne', ih hl']

/-- Storing at a key above `j` keeps every listed key above `j`. -/
theorem all_above_store {j k : Nat} (v : α) {l : List (Nat × α)} (hjk : j < k) (h : ∀ e ∈ l, j < e.1) :
    ∀ e ∈ store d k v l, j < e.1 := by
  induction l with
  | nil => by_cases hv : v = d <;> simp [store, hv, hjk]
  | cons e l ih =>
    obtain ⟨k', v'⟩ := e
    obtain ⟨hk', hl⟩ := List.forall_mem_cons.1 h
    simp only [store]
    split_ifs
    · exact List.forall_mem_cons.2 ⟨hk', hl⟩
    · exact List.forall_mem_cons.2 ⟨hjk, List.forall_mem_cons.2 ⟨hk', hl⟩⟩
    · exact hl
    · exact List.forall_mem_cons.2 ⟨hjk, hl⟩
    · exact List.forall_mem_cons.2 ⟨hk', ih hl⟩

/-- Storing keeps the canonical form. -/
theorem canonical_store (k : Nat) (v : α) {l : List (Nat × α)} (hl : canonical d l = true) :
    canonical d (store d k v l) = true := by
  induction l with
  | nil => by_cases hv : v = d <;> simp [store, canonical, hv]
  | cons e l ih =>
    obtain ⟨k', v'⟩ := e
    obtain ⟨hv', hall, hl'⟩ := (canonical_cons d).1 hl
    rcases lt_trichotomy k k' with h | rfl | h
    · have hab : ∀ e ∈ (k', v') :: l, k < e.1 := by
        intro e he
        rcases List.mem_cons.1 he with rfl | he
        exacts [h, h.trans (hall e he)]
      by_cases hv : v = d
      · simpa [store, h, hv] using hl
      · simpa [store, h, hv] using (canonical_cons d).2 ⟨hv, hab, hl⟩
    · by_cases hv : v = d
      · simpa [store, hv] using hl'
      · simpa [store, hv] using (canonical_cons d).2 ⟨hv, hall, hl'⟩
    · have := (canonical_cons d).2 ⟨hv', all_above_store d v h hall, ih hl'⟩
      simpa [store, h.not_gt, h.ne'] using this

end

/-! ### Memory -/

/-- Reset's memory is in canonical form. -/
theorem reset_mem_wf : Memory.wf State.reset.mem = true := rfl

/-- Writing a byte keeps the canonical form. -/
theorem memWrite_wf {s : State} (a : Nat) (b : Byte) (h : Memory.wf s.mem = true) :
    Memory.wf (s.memWrite a b).mem = true := canonical_store _ _ _ h

/-- A byte that was not written reads as before. -/
theorem memRead_memWrite_ne {s : State} {a a' : Nat} (b : Byte) (h : a' ≠ a) :
    (s.memWrite a b).memRead a' = s.memRead a' := lookup_store_ne _ _ _ h

/-- The byte written is read back. -/
theorem memRead_memWrite_self {s : State} (a : Nat) (b : Byte) (h : Memory.wf s.mem = true) :
    (s.memWrite a b).memRead a = b := lookup_store_self _ _ h

/-- Writing a slice keeps the canonical form. -/
theorem sliceWrite_wf {s : State} (sl : Slice) (i : Nat) (bs : List Byte) (h : Memory.wf s.mem = true) :
    Memory.wf (s.sliceWrite sl i bs).mem = true := by
  induction bs generalizing s i with
  | nil => exact h
  | cons b bs ih => exact ih _ (memWrite_wf _ _ h)

/-- A byte outside the indices written reads as before. -/
theorem memRead_sliceWrite_ne {s : State} {sl : Slice} {i a : Nat} {bs : List Byte}
    (h : ∀ k, k < bs.length → a ≠ sl.base + (i + k)) : (s.sliceWrite sl i bs).memRead a = s.memRead a := by
  induction bs generalizing s i with
  | nil => rfl
  | cons b bs ih =>
    rw [State.sliceWrite, ih fun k hk => ?_, memRead_memWrite_ne _ (by simpa using h 0 (by simp))]
    have := h (k + 1) (by simpa using hk)
    omega

/-- The bytes written are read back, at their indices. -/
theorem memRead_sliceWrite {s : State} {sl : Slice} {i k : Nat} {bs : List Byte} (h : Memory.wf s.mem = true)
    (hk : k < bs.length) : (s.sliceWrite sl i bs).memRead (sl.base + (i + k)) = bs.getD k 0 := by
  induction bs generalizing s i k with
  | nil => simp at hk
  | cons b bs ih =>
    rw [State.sliceWrite]
    cases k with
    | zero =>
      rw [memRead_sliceWrite_ne (fun k _ => by omega)]
      simpa using memRead_memWrite_self (sl.base + i) b h
    | succ k =>
      have := ih (i := i + 1) (k := k) (memWrite_wf (sl.base + i) b h) (by simpa using hk)
      simpa [Nat.add_assoc, Nat.add_comm, Nat.add_left_comm] using this

@[simp] theorem memRead_complete (s : State) (st : Status) (v : Option Val) (n : Option Nat) (w : Width) (a : Nat) :
    (s.complete st v n w).memRead a = s.memRead a := rfl

@[simp] theorem memRead_setSource (s : State) (k : SourceId) (src : Source) (a : Nat) :
    (s.setSource k src).memRead a = s.memRead a := rfl

/-! ### Byte sources -/

/-- Reset's byte sources are in canonical form. -/
theorem reset_sources_wf : Sources.wf State.reset.sources = true := rfl

/-- Changing a source keeps the canonical form. -/
theorem setSource_wf {s : State} (k : SourceId) (src : Source) (h : Sources.wf s.sources = true) :
    Sources.wf (s.setSource k src).sources = true := canonical_store _ _ _ h

/-- Another source is as before. -/
theorem source_setSource_ne {s : State} {k j : SourceId} (src : Source) (h : j ≠ k) :
    (s.setSource k src).source j = s.source j := lookup_store_ne _ _ _ h

/-- The source that was changed. -/
theorem source_setSource_self {s : State} (k : SourceId) (src : Source) (h : Sources.wf s.sources = true) :
    (s.setSource k src).source k = src := lookup_store_self _ _ h

end Sys2Proof.Machine
end

