-- ==== Sys2Proof/Laws/Wire.lean ====
section
/-! SUPPORT. The wire format: the fields of an emitted byte, folding a chunk, terminated sequences, the bias. -/

namespace Sys2Proof.Machine

/-! ### The fields of a byte -/

theorem firstChunk_eq (b : Byte) : firstChunk b = b.toNat % 2 ^ 6 := by
  simp [firstChunk, BitVec.extractLsb'_toNat]

theorem laterChunk_eq (b : Byte) : laterChunk b = b.toNat % 2 ^ 7 := by
  simp [laterChunk, BitVec.extractLsb'_toNat]

theorem firstByte_eq_of_mod (more s : Bool) (m : Nat) : firstByte more s m = firstByte more s (m % 64) := by
  have h : ∀ n : Nat, n &&& 0x3F = n % 64 := fun n => Nat.and_two_pow_sub_one_eq_mod n 6
  simp [firstByte, h]

theorem laterByte_eq_of_mod (more : Bool) (m : Nat) : laterByte more m = laterByte more (m % 128) := by
  have h : ∀ n : Nat, n &&& 0x7F = n % 128 := fun n => Nat.and_two_pow_sub_one_eq_mod n 7
  simp [laterByte, h]

theorem firstByte_fields_small (more s : Bool) (r : Fin 64) :
    (firstByte more s r.val).getLsbD 7 = more ∧ (firstByte more s r.val).getLsbD 6 = s ∧
      (firstByte more s r.val).toNat % 2 ^ 6 = r.val := by
  revert r; cases more <;> cases s <;> decide

theorem laterByte_fields_small (more : Bool) (r : Fin 128) :
    (laterByte more r.val).getLsbD 7 = more ∧ (laterByte more r.val).toNat % 2 ^ 7 = r.val := by
  revert r; cases more <;> decide

/-- The fields of byte 0 (30_encoding.md R61). -/
theorem firstByte_fields (more s : Bool) (m : Nat) :
    (firstByte more s m).getLsbD 7 = more ∧ (firstByte more s m).getLsbD 6 = s ∧
      (firstByte more s m).toNat % 2 ^ 6 = m % 2 ^ 6 := by
  rw [firstByte_eq_of_mod]
  exact firstByte_fields_small more s ⟨m % 64, Nat.mod_lt _ (by norm_num)⟩

/-- The fields of a later byte (30_encoding.md R62). -/
theorem laterByte_fields (more : Bool) (m : Nat) :
    (laterByte more m).getLsbD 7 = more ∧ (laterByte more m).toNat % 2 ^ 7 = m % 2 ^ 7 := by
  rw [laterByte_eq_of_mod]
  exact laterByte_fields_small more ⟨m % 128, Nat.mod_lt _ (by norm_num)⟩

/-- Folding a chunk in above the magnitude so far is adding it. -/
theorem foldChunk_eq_add {m n : Nat} (b : Byte) (h : m < 2 ^ chunkOffset n) :
    foldChunk m n b = m + 2 ^ chunkOffset n * (b.toNat % 2 ^ 7) := by
  rw [foldChunk, laterChunk_eq, Nat.or_comm, ← Nat.shiftLeft_add_eq_or_of_lt h, Nat.shiftLeft_eq]
  ring

theorem chunkOffset_succ {n : Nat} (h : 1 ≤ n) : chunkOffset (n + 1) = chunkOffset n + 7 := by
  simp only [chunkOffset]; omega

/-- The magnitude stays below the offset of the next chunk (10_state.md R30). -/
theorem foldChunk_lt {m n : Nat} (b : Byte) (hn : 1 ≤ n) (h : m < 2 ^ chunkOffset n) :
    foldChunk m n b < 2 ^ chunkOffset (n + 1) := by
  have hb : b.toNat % 2 ^ 7 < 2 ^ 7 := Nat.mod_lt _ (by norm_num)
  rw [foldChunk_eq_add b h, chunkOffset_succ hn, pow_add]
  nlinarith [Nat.two_pow_pos (chunkOffset n)]

theorem firstChunk_lt (b : Byte) : firstChunk b < 2 ^ chunkOffset 1 := by
  rw [firstChunk_eq]; exact Nat.mod_lt _ (by norm_num)

/-! ### Terminated and unterminated sequences -/

theorem unterminated_nil : Unterminated [] := fun _ hk => by simp at hk

theorem unterminated_cons {b : Byte} {bs : List Byte} :
    Unterminated (b :: bs) ↔ b.getLsbD 7 = true ∧ Unterminated bs := by
  constructor
  · intro h
    exact ⟨by simpa using h 0 (by simp), fun k hk => by simpa using h (k + 1) (by simpa using hk)⟩
  · rintro ⟨h0, h⟩ k hk
    cases k with
    | zero => simpa using h0
    | succ k => simpa using h k (by simpa using hk)

theorem terminated_single {b : Byte} : Terminated [b] ↔ b.getLsbD 7 = false := by
  constructor
  · rintro ⟨-, h⟩; simpa using h 0 (by simp)
  · intro h
    refine ⟨by simp, fun k hk => ?_⟩
    obtain rfl : k = 0 := by simpa using hk
    simpa using h

theorem terminated_cons_cons {b c : Byte} {bs : List Byte} :
    Terminated (b :: c :: bs) ↔ b.getLsbD 7 = true ∧ Terminated (c :: bs) := by
  constructor
  · rintro ⟨-, h⟩
    refine ⟨by simpa using h 0 (by simp), by simp, fun k hk => ?_⟩
    simpa using h (k + 1) (by simpa using hk)
  · rintro ⟨h0, -, h⟩
    refine ⟨by simp, fun k hk => ?_⟩
    cases k with
    | zero => simpa using h0
    | succ k => simpa using h k (by simpa using hk)

/-- Any list of bytes begins with a terminated sequence within the budget, or with `budget` unterminated bytes, or is
unterminated and shorter than the budget. -/
theorem scan_cases (budget : Nat) (l : List Byte) :
    (∃ bs rest, l = bs ++ rest ∧ Terminated bs ∧ bs.length ≤ budget) ∨
    (∃ bs rest, l = bs ++ rest ∧ Unterminated bs ∧ bs.length = budget) ∨
    (Unterminated l ∧ l.length < budget) := by
  induction l generalizing budget with
  | nil =>
    cases budget with
    | zero => exact .inr (.inl ⟨[], [], rfl, unterminated_nil, rfl⟩)
    | succ n => exact .inr (.inr ⟨unterminated_nil, by simp⟩)
  | cons b l ih =>
    cases budget with
    | zero => exact .inr (.inl ⟨[], b :: l, rfl, unterminated_nil, rfl⟩)
    | succ n =>
      by_cases hb : b.getLsbD 7 = true
      · rcases ih n with ⟨bs, rest, rfl, ht, hl⟩ | ⟨bs, rest, rfl, hu, hl⟩ | ⟨hu, hl⟩
        · cases bs with
          | nil => exact absurd rfl ht.1
          | cons c bs =>
            exact .inl ⟨b :: c :: bs, rest, rfl, terminated_cons_cons.2 ⟨hb, ht⟩, by simpa using hl⟩
        · exact .inr (.inl ⟨b :: bs, rest, rfl, unterminated_cons.2 ⟨hb, hu⟩, by simpa using hl⟩)
        · exact .inr (.inr ⟨unterminated_cons.2 ⟨hb, hu⟩, by simpa using hl⟩)
      · exact .inl ⟨[b], l, rfl, terminated_single.2 (by simpa using hb), by simp⟩

/-- The chunks of `n` later bytes are below 2^(7n). -/
theorem laterMag_lt (bs : List Byte) : laterMag bs < 2 ^ (7 * bs.length) := by
  induction bs with
  | nil => simp [laterMag]
  | cons b bs ih =>
    have hb : b.toNat % 2 ^ 7 < 2 ^ 7 := Nat.mod_lt _ (by norm_num)
    rw [laterMag, List.length_cons, Nat.mul_succ, Nat.pow_add]
    nlinarith

/-- Bits 6:0 of a later byte are its chunk of the magnitude (30_encoding.md R62). -/
theorem laterMag_chunk {bs : List Byte} {k : Nat} (h : k < bs.length) :
    (bs.getD k 0).toNat % 2 ^ 7 = laterMag bs / 2 ^ (7 * k) % 2 ^ 7 := by
  induction bs generalizing k with
  | nil => simp at h
  | cons b bs ih =>
    cases k with
    | zero => simp [laterMag]
    | succ k =>
      have hb : b.toNat % 2 ^ 7 < 2 ^ 7 := Nat.mod_lt _ (by norm_num)
      have htail : laterMag (b :: bs) / 2 ^ 7 = laterMag bs := by rw [laterMag]; omega
      rw [Nat.mul_succ, Nat.add_comm (7 * k) 7, pow_add, ← Nat.div_div_eq_div_mul, htail,
        ← ih (by simpa using h)]
      simp

/-! ### The bias -/

/-- The sign of a value (40_encoder.md R91 step 1). -/
theorem signOf_eq {n : Nat} (v : BitVec n) : signOf v = decide (v.toInt < 0) := BitVec.msb_eq_toInt

/-- The machine's magnitude is that of 30_encoding.md R64. -/
theorem magnitudeOf_eq {n : Nat} (v : BitVec n) : magnitudeOf v = biasedMag v.toInt := by
  have hlt := v.isLt
  by_cases h : v.msb = true
  · have hi : v.toInt < 0 := by simpa [BitVec.msb_eq_toInt] using h
    have ht : v.toInt = (v.toNat : Int) - 2 ^ n := by
      have := BitVec.toInt_eq_msb_cond v
      rw [if_pos h] at this
      exact_mod_cast this
    have hc : ((2 ^ n : Nat) : Int) = 2 ^ n := by push_cast; rfl
    rw [magnitudeOf, if_pos h, biasedMag, if_neg (by omega), BitVec.toNat_not]
    omega
  · have ht : v.toInt = (v.toNat : Int) := by
      have := BitVec.toInt_eq_msb_cond v
      rw [if_neg h] at this
      exact this
    rw [magnitudeOf, if_neg h, biasedMag, if_pos (by omega)]
    omega

/-- Undoing the bias (30_encoding.md R64). -/
theorem signedValue_biasedMag (v : Int) : signedValue (decide (v < 0)) (biasedMag v) = v := by
  by_cases h : v < 0
  · simp only [signedValue, h, decide_true, if_true, biasedMag, if_neg (not_le.2 h)]; omega
  · simp only [signedValue, h, decide_false, biasedMag, if_pos (not_lt.1 h)]; simp; omega

theorem reconstruct_eq (w : Width) (s : Bool) (m : Nat) : reconstruct w s m = wrapVal w (signedValue s m) := rfl

end Sys2Proof.Machine
end

