-- ==== Sys2Proof/Laws/BufferDecoder.lean ====
section
/-! SUPPORT. The Buffer Decoder: what it makes of a slice, and what it does to the state. -/

namespace Sys2Proof.Machine

/-- `decodeMore` on a terminated sequence within the budget. -/
theorem decodeMore_terminated {budget n m : Nat} {bs : List Byte} (rest : List Byte) (ht : Terminated bs)
    (hl : bs.length ≤ budget) (hn : 1 ≤ n) (hm : m < 2 ^ chunkOffset n) :
    decodeMore budget n m (bs ++ rest) = some (m + 2 ^ chunkOffset n * laterMag bs, n + bs.length) := by
  induction bs generalizing budget n m with
  | nil => exact absurd rfl ht.1
  | cons b bs ih =>
    cases budget with
    | zero => simp at hl
    | succ budget =>
      have hf := foldChunk_eq_add b hm
      cases bs with
      | nil =>
        have hb : moreFlag b = false := terminated_single.1 ht
        simp [decodeMore, hb, hf, laterMag]
      | cons c bs =>
        obtain ⟨hb, ht'⟩ := terminated_cons_cons.1 ht
        have hb' : moreFlag b = true := hb
        have := ih (budget := budget) (n := n + 1) (m := foldChunk m n b) ht' (by simpa using hl) (by omega)
          (foldChunk_lt b hn hm)
        rw [List.cons_append, decodeMore, if_pos hb', this, hf, chunkOffset_succ hn, pow_add]
        simp only [laterMag, List.length_cons]
        ring_nf

/-- `decodeMore` on unterminated bytes to the end of the budget: capping (41_buffer_decoder.md R114). -/
theorem decodeMore_capped {budget n m : Nat} {bs : List Byte} (rest : List Byte) (hu : Unterminated bs)
    (hl : bs.length = budget) (hn : 1 ≤ n) (hm : m < 2 ^ chunkOffset n) :
    decodeMore budget n m (bs ++ rest) = some (m + 2 ^ chunkOffset n * laterMag bs, n + bs.length) := by
  induction bs generalizing budget n m with
  | nil => subst hl; simp [decodeMore, laterMag]
  | cons b bs ih =>
    subst hl
    obtain ⟨hb, hu'⟩ := unterminated_cons.1 hu
    have hb' : moreFlag b = true := hb
    have := ih (budget := bs.length) (n := n + 1) (m := foldChunk m n b) hu' rfl (by omega) (foldChunk_lt b hn hm)
    rw [List.cons_append, List.length_cons, decodeMore, if_pos hb', this, foldChunk_eq_add b hm, chunkOffset_succ hn,
      pow_add]
    simp only [laterMag]
    ring_nf

/-- `decodeMore` on an unterminated slice that ends before the budget (41_buffer_decoder.md R115). -/
theorem decodeMore_exhausted {budget n m : Nat} {bs : List Byte} (hu : Unterminated bs) (hl : bs.length < budget) :
    decodeMore budget n m bs = none := by
  induction bs generalizing budget n m with
  | nil => cases budget with
    | zero => simp at hl
    | succ budget => rfl
  | cons b bs ih => cases budget with
    | zero => simp at hl
    | succ budget =>
      obtain ⟨hb, hu'⟩ := unterminated_cons.1 hu
      have hb' : moreFlag b = true := hb
      rw [decodeMore, if_pos hb', ih hu' (by simpa using hl)]

/-- A sequence a decode consumes whole: terminated within the budget, or capped at it. -/
def Consumed (w : Width) (bs : List Byte) : Prop :=
  (Terminated bs ∧ bs.length ≤ w.maxLen) ∨ (Unterminated bs ∧ bs.length = w.maxLen)

theorem wireMag_cons (b : Byte) (bs : List Byte) :
    wireMag (b :: bs) = firstChunk b + 2 ^ chunkOffset 1 * laterMag bs := by
  rw [wireMag, firstChunk_eq]; rfl

/-- A consumed sequence decodes to its sign, its magnitude and its length, whatever follows. -/
theorem decodeBytes_consumed {w : Width} {bs : List Byte} (rest : List Byte) (h : Consumed w bs) :
    decodeBytes w (bs ++ rest) = some (wireSign bs, wireMag bs, bs.length) := by
  have hpos : w.maxLen ≠ 0 := by cases w <;> decide
  cases bs with
  | nil =>
    rcases h with ⟨h, -⟩ | ⟨-, h⟩
    · exact absurd rfl h.1
    · exact absurd h.symm hpos
  | cons b bs =>
    have hmore : ∀ (_ : b.getLsbD 7 = true)
        (_ : decodeMore (w.maxLen - 1) 1 (firstChunk b) (bs ++ rest) =
          some (firstChunk b + 2 ^ chunkOffset 1 * laterMag bs, 1 + bs.length)),
        decodeBytes w (b :: bs ++ rest) = some (wireSign (b :: bs), wireMag (b :: bs), (b :: bs).length) := by
      intro hb hd
      have hb' : moreFlag b = true := hb
      rw [List.cons_append, decodeBytes, if_pos hb', hd, wireMag_cons]
      simp [wireSign, signFlag, Nat.add_comm]
    rcases h with ⟨ht, hl⟩ | ⟨hu, hl⟩
    · cases bs with
      | nil =>
        have hb : moreFlag b = false := terminated_single.1 ht
        simp [decodeBytes, hb, wireMag_cons, wireSign, signFlag, laterMag]
      | cons c bs =>
        obtain ⟨hb, ht'⟩ := terminated_cons_cons.1 ht
        exact hmore hb (decodeMore_terminated rest ht' (by simp at hl ⊢; omega) le_rfl (firstChunk_lt b))
    · obtain ⟨hb, hu'⟩ := unterminated_cons.1 hu
      exact hmore hb (decodeMore_capped rest hu' (by simp at hl ⊢; omega) le_rfl (firstChunk_lt b))

/-- An unterminated slice shorter than the budget gives nothing (41_buffer_decoder.md R115). -/
theorem decodeBytes_insufficient {w : Width} {bs : List Byte} (hu : Unterminated bs) (hl : bs.length < w.maxLen) :
    decodeBytes w bs = none := by
  cases bs with
  | nil => rfl
  | cons b bs =>
    obtain ⟨hb, hu'⟩ := unterminated_cons.1 hu
    have hb' : moreFlag b = true := hb
    rw [decodeBytes, if_pos hb', decodeMore_exhausted hu' (by simp at hl; omega)]
    rfl

/-- Everything a decode can make of a slice. -/
theorem decodeBytes_cases (w : Width) (l : List Byte) :
    (∃ bs rest, l = bs ++ rest ∧ Consumed w bs ∧
      decodeBytes w l = some (wireSign bs, wireMag bs, bs.length)) ∨
    (Unterminated l ∧ l.length < w.maxLen ∧ decodeBytes w l = none) := by
  rcases scan_cases w.maxLen l with ⟨bs, rest, rfl, ht, hl⟩ | ⟨bs, rest, rfl, hu, hl⟩ | ⟨hu, hl⟩
  · exact .inl ⟨bs, rest, rfl, .inl ⟨ht, hl⟩, decodeBytes_consumed rest (.inl ⟨ht, hl⟩)⟩
  · exact .inl ⟨bs, rest, rfl, .inr ⟨hu, hl⟩, decodeBytes_consumed rest (.inr ⟨hu, hl⟩)⟩
  · exact .inr ⟨hu, hl, decodeBytes_insufficient hu hl⟩

theorem Consumed.length_le {w : Width} {bs : List Byte} (h : Consumed w bs) : bs.length ≤ w.maxLen := by
  rcases h with ⟨-, h⟩ | ⟨-, h⟩ <;> omega

theorem Consumed.length_pos {w : Width} {bs : List Byte} (h : Consumed w bs) : 1 ≤ bs.length := by
  rcases h with ⟨h, -⟩ | ⟨-, h⟩
  · exact List.length_pos_iff.2 h.1
  · rw [h]; cases w <;> decide

theorem sliceBytes_length (s : State) (src : Slice) (n : Nat) : (sliceBytes s src n).length = min src.len n := by
  simp [sliceBytes]

theorem sliceBytes_getD {s : State} {src : Slice} {n k : Nat} (h : k < min src.len n) :
    (sliceBytes s src n).getD k 0 = s.memRead (src.base + k) := by
  simp [sliceBytes, State.sliceRead, List.getD, h]

/-- A slice that begins with a sequence within the budget shows it to the decoder first. -/
theorem sliceBytes_of_holds {s : State} {src : Slice} {n : Nat} {bs : List Byte} (hb : bs.length ≤ n)
    (h : SliceHolds s src bs) : ∃ rest, sliceBytes s src n = bs ++ rest := by
  refine ⟨(sliceBytes s src n).drop bs.length, ?_⟩
  have htake : (sliceBytes s src n).take bs.length = bs := by
    apply List.ext_getElem
    · rw [List.length_take, sliceBytes_length]; have := h.1; omega
    · intro k h1 h2
      have hk : k < min src.len n := by have := h.1; omega
      have := sliceBytes_getD (s := s) hk
      rw [h.2 k h2] at this
      simpa [List.getD, List.getElem?_eq_getElem, h2, sliceBytes_length, hk] using this
  conv_lhs => rw [← List.take_append_drop bs.length (sliceBytes s src n), htake]

/-- Everything a DECODE does (41_buffer_decoder.md R111). -/
theorem exec_decodeOf (w : Width) (src : Slice) (s : State) :
    exec (decodeOf w src) s = .next (s.whenAccepted (runDecode w src)) := by
  cases w <;> rfl

/-- An accepted DECODE of a slice that begins with a consumed sequence. -/
theorem exec_decodeOf_consumed {w : Width} {src : Slice} {s : State} {bs : List Byte} (ha : s.accepts = true)
    (hc : Consumed w bs) (hs : SliceHolds s src bs) :
    exec (decodeOf w src) s =
      .next (s.complete .ok (some (wrapVal w (signedValue (wireSign bs) (wireMag bs)))) (some bs.length) w) := by
  obtain ⟨rest, hr⟩ := sliceBytes_of_holds (n := w.maxLen) hc.length_le hs
  rw [exec_decodeOf, State.whenAccepted, if_pos ha, runDecode, hr, decodeBytes_consumed rest hc]
  rfl

/-- An accepted DECODE: either it consumes a sequence the slice begins with, or the slice is insufficient. -/
theorem exec_decodeOf_cases {w : Width} (src : Slice) {s : State} (ha : s.accepts = true) :
    (∃ bs, Consumed w bs ∧ SliceHolds s src bs ∧ exec (decodeOf w src) s =
      .next (s.complete .ok (some (wrapVal w (signedValue (wireSign bs) (wireMag bs)))) (some bs.length) w)) ∨
    (src.len < w.maxLen ∧ (∀ k, k < src.len → (s.memRead (src.base + k)).getLsbD 7 = true) ∧
      exec (decodeOf w src) s = .next (s.complete .ok (some (wrapVal w 0)) (some 0) w)) := by
  rcases decodeBytes_cases w (sliceBytes s src w.maxLen) with ⟨bs, rest, hl, hc, -⟩ | ⟨hu, hlen, hd⟩
  · have hs : SliceHolds s src bs := by
      have hlen := congrArg List.length hl
      rw [sliceBytes_length, List.length_append] at hlen
      refine ⟨by omega, fun k hk => ?_⟩
      rw [← sliceBytes_getD (n := w.maxLen) (by omega), hl]
      simp [List.getD, List.getElem?_append_left hk]
    exact .inl ⟨bs, hc, hs, exec_decodeOf_consumed ha hc hs⟩
  · rw [sliceBytes_length] at hlen
    refine .inr ⟨by omega, fun k hk => ?_, ?_⟩
    · rw [← sliceBytes_getD (n := w.maxLen) (by omega)]
      exact hu k (by rw [sliceBytes_length]; omega)
    · rw [exec_decodeOf, State.whenAccepted, if_pos ha, runDecode, hd]

end Sys2Proof.Machine
end

