-- ==== Sys2Proof/Laws/Decode.lean ====
section
/-! SUPPORT. Command decode and encode. -/

namespace Sys2Proof

/-- RSVD of an encoded CMD word (30_encoding.md R72). -/
@[simp] theorem cmdWord_rsvd (f : Family) (w : Width) : (cmdWord f w).extractLsb' 3 5 = 0#5 := by
  cases f <;> cases w <;> decide

/-- OP of an encoded CMD word (30_encoding.md R72). -/
@[simp] theorem cmdWord_op (f : Family) (w : Width) : (cmdWord f w).extractLsb' 0 2 = familyBits f := by
  cases f <;> cases w <;> decide

/-- WIDE of an encoded CMD word (30_encoding.md R72). -/
@[simp] theorem cmdWord_wide (f : Family) (w : Width) : (cmdWord f w)[2] = decide (w = .w64) := by
  cases f <;> cases w <;> decide

/-- The CMD word of a family and a width decodes to them (30_encoding.md R74). -/
@[simp] theorem decodeCmd_cmdWord (f : Family) (w : Width) : decodeCmd (cmdWord f w) = some (f, w) := by
  cases f <;> cases w <;> decide

/-- IllegalCommand is raised exactly for the reserved words (60_exceptions.md R162). -/
theorem decodeCmd_eq_none_iff (cmd : Byte) :
    decodeCmd cmd = none ↔ cmd.extractLsb' 3 5 ≠ 0#5 ∨ cmd.extractLsb' 0 2 = 3#2 := by
  revert cmd; decide

theorem decode_of_none {r : Request} (h : decodeCmd r.cmd = none) : decode r = .illegalCommand r.cmd := by
  simp only [decode, h]

/-- The range of the 32-bit value port (40_encoder.md R90). -/
theorem fits32_iff (v : Int) : Width.w32.fits v = true ↔ -2147483648 ≤ v ∧ v < 2147483648 := by
  simp only [Width.fits, Width.bits, Bool.and_eq_true]; norm_num

/-- The range of the 64-bit value port (40_encoder.md R90). -/
theorem fits64_iff (v : Int) :
    Width.w64.fits v = true ↔ -9223372036854775808 ≤ v ∧ v < 9223372036854775808 := by
  simp only [Width.fits, Width.bits, Bool.and_eq_true]; norm_num

end Sys2Proof

namespace Sys2Proof.Machine

theorem decode_encode_readOf (w : Width) (k : SourceId) : decode (encode (readOf w k)) = .instr (readOf w k) := by
  cases w <;> simp [readOf, encode, decode]

theorem decode_encode_decodeOf (w : Width) (src : Slice) :
    decode (encode (decodeOf w src)) = .instr (decodeOf w src) := by
  cases w <;> simp [decodeOf, encode, decode]

end Sys2Proof.Machine
end

