-- ==== Sys2Proof/Laws/Encoder.lean ====
section
/-! SUPPORT. The Encoder: the bytes it emits and what it does to the state. -/

namespace Sys2Proof.Machine

/-- `laterBytes` carries the magnitude, with as few bytes as hold it (40_encoder.md R92). -/
theorem laterBytes_spec {budget m : Nat} (h : m < 2 ^ (7 * budget)) :
    laterMag (laterBytes budget m) = m ∧ (laterBytes budget m).length ≤ budget ∧
      (m ≠ 0 → Terminated (laterBytes budget m)) ∧
      ∀ b, b < (laterBytes budget m).length → 2 ^ (7 * b) ≤ m := by
  induction budget generalizing m with
  | zero =>
    obtain rfl : m = 0 := by simpa using h
    exact ⟨rfl, le_rfl, fun h => absurd rfl h, by simp [laterBytes]⟩
  | succ budget ih =>
    by_cases h0 : m = 0
    · subst h0
      exact ⟨rfl, Nat.zero_le _, fun h => absurd rfl h, by simp [laterBytes]⟩
    · have hs : m >>> 7 = m / 2 ^ 7 := Nat.shiftRight_eq_div_pow m 7
      have hlt : m >>> 7 < 2 ^ (7 * budget) := by
        rw [hs, Nat.div_lt_iff_lt_mul (by norm_num), ← pow_add]
        exact h
      obtain ⟨hm, hlen, ht, hb⟩ := ih hlt
      obtain ⟨hf1, hf2⟩ := laterByte_fields (decide (m >>> 7 ≠ 0)) m
      simp only [laterBytes, if_neg h0]
      refine ⟨?_, by simpa using hlen, fun _ => ?_, ?_⟩
      · rw [laterMag, hm, hf2, hs]; exact Nat.mod_add_div m (2 ^ 7)
      · by_cases h7 : m >>> 7 = 0
        · have hnil : laterBytes budget (m >>> 7) = [] := by
            rw [h7]; cases budget <;> simp [laterBytes]
          rw [hnil]
          exact terminated_single.2 (by simpa [h7] using hf1)
        · cases hcase : laterBytes budget (m >>> 7) with
          | nil => exact absurd (hcase ▸ ht h7) (fun h => h.1 rfl)
          | cons c bs =>
            exact terminated_cons_cons.2 ⟨by simpa [h7] using hf1, hcase ▸ ht h7⟩
      · intro b hb'
        cases b with
        | zero => simpa using Nat.one_le_iff_ne_zero.2 h0
        | succ b =>
          have := hb b (by simpa using hb')
          rw [hs, Nat.le_div_iff_mul_le (by norm_num), ← pow_add] at this
          simpa [Nat.mul_succ] using this

/-- The budget does not change the bytes of a magnitude that fits it (40_encoder.md R97). -/
theorem laterBytes_budget {b c m : Nat} (hb : m < 2 ^ (7 * b)) (hc : m < 2 ^ (7 * c)) :
    laterBytes b m = laterBytes c m := by
  have hlt : ∀ d, m < 2 ^ (7 * (d + 1)) → m >>> 7 < 2 ^ (7 * d) := fun d hd => by
    rw [Nat.shiftRight_eq_div_pow, Nat.div_lt_iff_lt_mul (by norm_num), ← pow_add]
    exact hd
  induction b generalizing c m with
  | zero =>
    obtain rfl : m = 0 := by simpa using hb
    cases c <;> simp [laterBytes]
  | succ b ih =>
    cases c with
    | zero =>
      obtain rfl : m = 0 := by simpa using hc
      simp [laterBytes]
    | succ c =>
      simp only [laterBytes]
      rw [ih (hlt _ hb) (hlt _ hc) fun d hd => ?_]
      rw [Nat.shiftRight_eq_div_pow, Nat.div_lt_iff_lt_mul (by norm_num), ← pow_add]
      exact hd

/-- What `ENCODE` emits (40_encoder.md R92): the sign and the magnitude, terminated, at the canonical length. -/
theorem encodeBytes_spec {w : Width} {m : Nat} (s : Bool) (h : m < 2 ^ (6 + 7 * (w.maxLen - 1))) :
    wireMag (encodeBytes w s m) = m ∧ wireSign (encodeBytes w s m) = s ∧ Terminated (encodeBytes w s m) ∧
      CanonicalLength m (encodeBytes w s m).length ∧ (encodeBytes w s m).length ≤ w.maxLen := by
  have hs : m >>> 6 = m / 2 ^ 6 := Nat.shiftRight_eq_div_pow m 6
  have hlt : m >>> 6 < 2 ^ (7 * (w.maxLen - 1)) := by
    rw [hs, Nat.div_lt_iff_lt_mul (by norm_num), ← pow_add, Nat.add_comm]
    exact h
  obtain ⟨hm, hlen, ht, hb⟩ := laterBytes_spec hlt
  obtain ⟨hf1, hf2, hf3⟩ := firstByte_fields (decide (m >>> 6 ≠ 0)) s m
  have hpos : 1 ≤ w.maxLen := by cases w <;> decide
  refine ⟨?_, by simpa [wireSign, encodeBytes] using hf2, ?_, ⟨?_, ?_, ?_⟩, ?_⟩
  · rw [encodeBytes, wireMag, hm, hf3, hs]; exact Nat.mod_add_div m (2 ^ 6)
  · rw [encodeBytes]
    by_cases h6 : m >>> 6 = 0
    · have hnil : laterBytes (w.maxLen - 1) (m >>> 6) = [] := by
        rw [h6]; cases w <;> rfl
      rw [hnil]
      exact terminated_single.2 (by simpa [h6] using hf1)
    · cases hcase : laterBytes (w.maxLen - 1) (m >>> 6) with
      | nil => exact absurd (hcase ▸ ht h6) (fun h => h.1 rfl)
      | cons c bs => exact terminated_cons_cons.2 ⟨by simpa [h6] using hf1, hcase ▸ ht h6⟩
  · simp [encodeBytes]
  · have := laterMag_lt (laterBytes (w.maxLen - 1) (m >>> 6))
    rw [hm] at this
    rw [encodeBytes, List.length_cons, Nat.add_sub_cancel, pow_add, Nat.mul_comm,
      ← Nat.div_lt_iff_lt_mul (by norm_num), ← hs]
    exact this
  · intro b hb1 hb2
    obtain ⟨b, rfl⟩ : ∃ c, b = c + 1 := ⟨b - 1, by omega⟩
    cases b with
    | zero =>
      have h6 : m >>> 6 ≠ 0 := by
        intro h6
        rw [encodeBytes, h6] at hb1
        revert hb1
        cases w <;> simp [laterBytes, Width.maxLen]
      have : 1 ≤ m / 2 ^ 6 := by omega
      rw [Nat.le_div_iff_mul_le (by norm_num)] at this
      simpa using this
    | succ b =>
      have := hb (b + 1) (by simpa [encodeBytes] using hb1)
      rw [hs, Nat.le_div_iff_mul_le (by norm_num), ← pow_add] at this
      simpa [Nat.add_comm] using this
  · simp only [encodeBytes, List.length_cons]; omega

/-- A magnitude of the width fits the budget (30_encoding.md R66). -/
theorem biasedMag_lt {w : Width} {v : Int} (h : w.fits v = true) : biasedMag v < 2 ^ (6 + 7 * (w.maxLen - 1)) := by
  cases w <;> simp only [Width.fits, Width.bits, Bool.and_eq_true] at h <;>
    simp only [biasedMag, Width.maxLen] <;> split <;> norm_num at h ⊢ <;> omega

theorem toInt_ofInt32 {v : Int} (h : Width.w32.fits v = true) : (BitVec.ofInt 32 v).toInt = v := by
  rw [fits32_iff] at h
  rw [BitVec.toInt_ofInt, Int.bmod_def]
  norm_num
  omega

theorem toInt_ofInt64 {v : Int} (h : Width.w64.fits v = true) : (BitVec.ofInt 64 v).toInt = v := by
  rw [fits64_iff] at h
  rw [BitVec.toInt_ofInt, Int.bmod_def]
  norm_num
  omega

/-- The bytes an ENCODE of the integer `v` emits. -/
def emitted (w : Width) (v : Int) : List Byte := encodeBytes w (decide (v < 0)) (biasedMag v)

/-- What the emitted bytes are (40_encoder.md R92). -/
theorem emitted_spec {w : Width} {v : Int} (h : w.fits v = true) :
    wireMag (emitted w v) = biasedMag v ∧ wireSign (emitted w v) = decide (v < 0) ∧ Terminated (emitted w v) ∧
      CanonicalLength (biasedMag v) (emitted w v).length ∧ (emitted w v).length ≤ w.maxLen :=
  encodeBytes_spec _ (biasedMag_lt h)

/-- Everything an ENCODE can do (40_encoder.md R91). -/
theorem exec_encodeOf {w : Width} {v : Int} (dst : Slice) (s : State) (h : w.fits v = true) :
    exec (encodeOf w v dst) s = .next (s.whenAccepted fun s =>
      if dst.len < w.maxLen then s.raiseFault .dstTooSmall (.cap dst.len)
      else (s.sliceWrite dst 0 (emitted w v)).complete .ok none (some (emitted w v).length) w) := by
  cases w with
  | w32 =>
    simp only [encodeOf, exec, execEncode32, signOf_eq, magnitudeOf_eq, toInt_ofInt32 h]
    rfl
  | w64 =>
    simp only [encodeOf, exec, execEncode64, signOf_eq, magnitudeOf_eq, toInt_ofInt64 h]
    rfl

/-- An accepted ENCODE with the capacity it needs (40_encoder.md R91). -/
theorem exec_encodeOf_next {w : Width} {v : Int} {dst : Slice} {s : State} (h : w.fits v = true)
    (ha : s.accepts = true) (hc : w.maxLen ≤ dst.len) :
    exec (encodeOf w v dst) s =
      .next ((s.sliceWrite dst 0 (emitted w v)).complete .ok none (some (emitted w v).length) w) := by
  rw [exec_encodeOf dst s h, State.whenAccepted, if_pos ha, if_neg (not_lt.2 hc)]

end Sys2Proof.Machine
end

