-- ==== Sys2Proof/Laws/PerInstr.lean ====
section
/-! SUPPORT. Per command, as syntax: its encoding is a well-formed request. -/

namespace Sys2Proof.Laws.EncodesWellFormed

/-- The request that encodes the command is well formed: its CMD word is not reserved and its integer fits the port. -/
def Statement (i : Instr) : Prop := (encode i).wellFormed = true

theorem fits_toInt32 (v : BitVec 32) : Width.w32.fits v.toInt = true := by
  have h1 := BitVec.toInt_lt (x := v)
  have h2 := BitVec.le_toInt (x := v)
  rw [fits32_iff]; simp at h1 h2; omega

theorem fits_toInt64 (v : BitVec 64) : Width.w64.fits v.toInt = true := by
  have h1 := BitVec.toInt_lt (x := v)
  have h2 := BitVec.le_toInt (x := v)
  rw [fits64_iff]; simp at h1 h2; omega

theorem encode32 (v : BitVec 32) (dst : Slice) : Statement (.encode32 v dst) := by
  simp [Statement, Sys2Proof.encode, Request.wellFormed, Request.reservedClear, Request.opDefined, Request.valueFits,
    familyBits, fits_toInt32]

theorem encode64 (v : BitVec 64) (dst : Slice) : Statement (.encode64 v dst) := by
  simp [Statement, Sys2Proof.encode, Request.wellFormed, Request.reservedClear, Request.opDefined, Request.valueFits,
    familyBits, fits_toInt64]

theorem decode32 (src : Slice) : Statement (.decode32 src) := by
  simp [Statement, Sys2Proof.encode, Request.wellFormed, Request.reservedClear, Request.opDefined, Request.valueFits,
    familyBits]

theorem decode64 (src : Slice) : Statement (.decode64 src) := by
  simp [Statement, Sys2Proof.encode, Request.wellFormed, Request.reservedClear, Request.opDefined, Request.valueFits,
    familyBits]

theorem readVarint32 (k : SourceId) : Statement (.readVarint32 k) := by
  simp [Statement, Sys2Proof.encode, Request.wellFormed, Request.reservedClear, Request.opDefined, Request.valueFits,
    familyBits]

theorem readVarint64 (k : SourceId) : Statement (.readVarint64 k) := by
  simp [Statement, Sys2Proof.encode, Request.wellFormed, Request.reservedClear, Request.opDefined, Request.valueFits,
    familyBits]

end Sys2Proof.Laws.EncodesWellFormed
end

