-- ==== Sys2Proof/Laws/StreamDecoder.lean ====
section
/-! SUPPORT. The Stream Decoder: one step on an answer, and a READ served to its end. -/

namespace Sys2Proof.Machine

/-- Everything the machine does when the bound source answers. -/
theorem step_answer {s : State} {rest : List Input} (h : s.inputs = .answer :: rest) :
    step s = .next (State.serveAnswer { s with inputs := rest }) := by
  rw [step, h]; rfl

/-- Everything an accepted or refused READ does (42_stream_decoder.md R132). -/
theorem exec_readOf (w : Width) (k : SourceId) (s : State) :
    exec (readOf w k) s = .next (s.whenAccepted fun t => t.startRead w k) := by
  cases w <;> rfl

/-- The step of a READ with an answer to take (42_stream_decoder.md R133). -/
theorem serveAnswer_of_pending {s : State} {a : Answer} {as : List Answer} (hp : s.phase = .readBusy)
    (hd : s.sdState ≠ .done) (h : (s.source s.sdSource).pending = a :: as) :
    s.serveAnswer = (s.setSource s.sdSource ((s.source s.sdSource).answered a as)).readStep a := by
  simp [State.serveAnswer, State.requests, hp, hd, h]

/-- With nothing to answer there is no step (42_stream_decoder.md R137). -/
theorem serveAnswer_of_nothing {s : State} (h : (s.source s.sdSource).pending = []) : s.serveAnswer = s := by
  simp [State.serveAnswer, h]

/-- With no request outstanding there is no step (42_stream_decoder.md R133). -/
theorem serveAnswer_of_idle {s : State} (h : s.phase = .idle) : s.serveAnswer = s := by
  simp [State.serveAnswer, State.requests, h]

/-- What a step of a READ never touches, whatever the answer: memory, sources, faults, the inputs, the host's data and
mark, the binding (10_state.md R34, 60_exceptions.md R161). -/
theorem readStep_frame (s : State) (a : Answer) :
    (s.readStep a).mem = s.mem ∧ (s.readStep a).sources = s.sources ∧ (s.readStep a).fault = s.fault ∧
      (s.readStep a).faultInfo = s.faultInfo ∧ (s.readStep a).inputs = s.inputs ∧
      (s.readStep a).hostData = s.hostData ∧ (s.readStep a).sdSource = s.sdSource ∧
      (s.readStep a).hostFault = s.hostFault := by
  cases a with
  | endOfInput => exact ⟨rfl, rfl, rfl, rfl, rfl, rfl, rfl, rfl⟩
  | byte b =>
    have habs : ∃ sg m n, s.absorb b = { s with sdSign := sg, sdMag := m, sdN := n } := by
      simp only [State.absorb]; split <;> exact ⟨_, _, _, rfl⟩
    obtain ⟨sg, m, n, h⟩ := habs
    rw [State.readStep, h, State.concludeByte]
    split_ifs <;> exact ⟨rfl, rfl, rfl, rfl, rfl, rfl, rfl, rfl⟩

theorem laterMag_append (bs : List Byte) (b : Byte) :
    laterMag (bs ++ [b]) = laterMag bs + 2 ^ (7 * bs.length) * (b.toNat % 2 ^ 7) := by
  induction bs with
  | nil => simp [laterMag]
  | cons c bs ih =>
    rw [List.cons_append, laterMag, ih, laterMag, List.length_cons, Nat.mul_succ, pow_add]
    ring

theorem wireMag_lt {bs : List Byte} (h : bs ≠ []) : wireMag bs < 2 ^ chunkOffset bs.length := by
  cases bs with
  | nil => exact absurd rfl h
  | cons b bs =>
    have hb : b.toNat % 2 ^ 6 < 2 ^ 6 := Nat.mod_lt _ (by norm_num)
    have := laterMag_lt bs
    rw [wireMag, chunkOffset, List.length_cons, Nat.add_sub_cancel, pow_add]
    nlinarith

/-- Folding in the next byte of a sequence that has begun. -/
theorem wireMag_append {bs : List Byte} (b : Byte) (h : bs ≠ []) :
    wireMag (bs ++ [b]) = foldChunk (wireMag bs) bs.length b := by
  rw [foldChunk_eq_add b (wireMag_lt h)]
  cases bs with
  | nil => exact absurd rfl h
  | cons c bs =>
    rw [List.cons_append, wireMag, wireMag, laterMag_append, chunkOffset, List.length_cons, Nat.add_sub_cancel,
      pow_add]
    ring

theorem wireSign_append {bs : List Byte} (cs : List Byte) (h : bs ≠ []) : wireSign (bs ++ cs) = wireSign bs := by
  cases bs with
  | nil => exact absurd rfl h
  | cons c bs => rfl

/-- A READ of width `w` from source `k` is in progress and has consumed the bytes `bs`; its source keeps `as` to give
and stands at `p`; `ins` are the inputs to come. -/
structure ReadAt (u : State) (w : Width) (k : SourceId) (bs : List Byte) (as : List Answer) (p : Nat)
    (ins : List Input) : Prop where
  phase : u.phase = .readBusy
  sdState : u.sdState = if bs = [] then .awaitFirstByte else .awaitContinuation
  sdN : u.sdN = bs.length
  sdSign : bs ≠ [] → u.sdSign = wireSign bs
  sdMag : bs ≠ [] → u.sdMag = wireMag bs
  sdW : u.sdW = w
  sdSource : u.sdSource = k
  source : u.source k = ⟨as, p⟩
  inputs : u.inputs = ins
  wf : Sources.wf u.sources = true

/-- A READ of width `w` from source `k` has completed. -/
structure ReadDone (t : State) (w : Width) (k : SourceId) (st : Status) (v : ResultReg Val) (as : List Answer)
    (p : Nat) : Prop where
  phase : t.phase = .idle
  status : t.status = some st
  value : t.value = v
  len : t.len = .absent
  resW : t.resW = some w
  source : t.source k = ⟨as, p⟩

@[simp] theorem source_finishRead (s : State) (st : Status) (v : Option Val) (k : SourceId) :
    (s.finishRead st v).source k = s.source k := rfl

section
variable {u : State} {w : Width} {k : SourceId} {bs : List Byte} {as : List Answer} {p : Nat} {ins : List Input}

/-- The state in which the answer is taken, before the block acts on it. -/
theorem ReadAt.taken {a : Answer} (h : ReadAt u w k bs (a :: as) p (.answer :: ins)) :
    ∃ x, step u = .next (State.readStep x a) ∧ ReadAt x w k bs as (p + a.advance) ins := by
  have hd : u.sdState ≠ .done := by rw [h.sdState]; split <;> simp
  have hsrc : u.source u.sdSource = ⟨a :: as, p⟩ := by rw [h.sdSource]; exact h.source
  have hsrc' : (State.source { u with inputs := ins } u.sdSource) = ⟨a :: as, p⟩ := hsrc
  refine ⟨State.setSource { u with inputs := ins } u.sdSource ⟨as, p + a.advance⟩, ?_, ?_⟩
  · have hserve := serveAnswer_of_pending (s := { u with inputs := ins }) (a := a) (as := as) h.phase hd
      (congrArg Source.pending hsrc')
    rw [step_answer h.inputs, hserve, hsrc']
    rfl
  · refine ⟨h.phase, h.sdState, h.sdN, h.sdSign, h.sdMag, h.sdW, h.sdSource, ?_, rfl, ?_⟩
    · rw [h.sdSource]; exact source_setSource_self (s := { u with inputs := ins }) k _ h.wf
    · exact setSource_wf (s := { u with inputs := ins }) _ _ h.wf

/-- End completes the READ as truncated (42_stream_decoder.md R138). -/
theorem ReadAt.step_end (h : ReadAt u w k bs (.endOfInput :: as) p (.answer :: ins)) :
    ∃ t, step u = .next t ∧ ReadDone t w k .truncated .absent as p := by
  obtain ⟨x, hx, hr⟩ := h.taken
  exact ⟨_, hx, rfl, rfl, rfl, rfl, by simp [State.readStep, hr.sdW], hr.source⟩

/-- The registers once a byte is absorbed (42_stream_decoder.md R134, R135). -/
theorem ReadAt.absorbed (b : Byte) (h : ReadAt u w k bs as p ins) :
    u.absorb b = { u with
      sdSign := wireSign (bs ++ [b]), sdMag := wireMag (bs ++ [b]), sdN := bs.length + 1 } := by
  by_cases hb : bs = []
  · subst hb
    have := h.sdState
    simp only [if_true] at this
    simp [State.absorb, this, h.sdN, wireSign, wireMag, laterMag, signFlag, firstChunk_eq]
  · have := h.sdState
    simp only [if_neg hb] at this
    simp [State.absorb, this, h.sdN, wireSign_append _ hb, wireMag_append b hb, h.sdMag hb, ← h.sdSign hb]

/-- A byte with the more flag within the budget (42_stream_decoder.md R134, R135). -/
theorem ReadAt.step_more {b : Byte} (h : ReadAt u w k bs (.byte b :: as) p (.answer :: ins))
    (hb : b.getLsbD 7 = true) (hl : bs.length + 1 < w.maxLen) :
    ∃ t, step u = .next t ∧ ReadAt t w k (bs ++ [b]) as (p + 1) ins := by
  obtain ⟨x, hx, hr⟩ := h.taken
  have hb' : moreFlag b = true := hb
  have hne : bs.length + 1 ≠ w.maxLen := hl.ne
  refine ⟨_, hx, ?_⟩
  simp only [State.readStep, State.concludeByte, hr.absorbed b, hb', hr.sdW, if_neg hne, Bool.true_eq_false, if_false]
  exact ⟨hr.phase, by simp, by simp, fun _ => rfl, fun _ => rfl, rfl, hr.sdSource, hr.source, hr.inputs, hr.wf⟩

/-- A byte with the more flag that fills the budget (42_stream_decoder.md R136). -/
theorem ReadAt.step_overflow {b : Byte} (h : ReadAt u w k bs (.byte b :: as) p (.answer :: ins))
    (hb : b.getLsbD 7 = true) (hl : bs.length + 1 = w.maxLen) :
    ∃ t, step u = .next t ∧ ReadDone t w k .overflow .absent as (p + 1) := by
  obtain ⟨x, hx, hr⟩ := h.taken
  have hb' : moreFlag b = true := hb
  refine ⟨_, hx, ?_⟩
  simp only [State.readStep, State.concludeByte, hr.absorbed b, hb', hr.sdW, if_pos hl, Bool.true_eq_false, if_false]
  exact ⟨rfl, rfl, rfl, rfl, by simp, hr.source⟩

/-- A byte without the more flag (42_stream_decoder.md R139). -/
theorem ReadAt.step_last {b : Byte} (h : ReadAt u w k bs (.byte b :: as) p (.answer :: ins))
    (hb : b.getLsbD 7 = false) :
    ∃ t, step u = .next t ∧ ReadDone t w k .ok
      (.holds (wrapVal w (signedValue (wireSign (bs ++ [b])) (wireMag (bs ++ [b]))))) as (p + 1) := by
  obtain ⟨x, hx, hr⟩ := h.taken
  have hb' : moreFlag b = false := hb
  refine ⟨_, hx, ?_⟩
  simp only [State.readStep, State.concludeByte, hr.absorbed b, hb', if_true]
  exact ⟨rfl, rfl, by simp [hr.sdW, ResultReg.ofOption, reconstruct_eq], rfl, by simp [hr.sdW], hr.source⟩

end

theorem run_zero (s : State) : Host.Core.run core 0 s = .next s := rfl

theorem run_succ_of_step {s t : State} (n : Nat) (h : step s = .next t) :
    Host.Core.run core (n + 1) s = Host.Core.run core n t := by
  have h' : core.step s = .next t := h
  simp only [Host.Core.run, h']

section
variable {u : State} {w : Width} {k : SourceId} {bs cs : List Byte} {as : List Answer} {p : Nat}

/-- The busy states of a longer run, from the first step and the rest of the run. -/
theorem busy_of_step {t : State} {n : Nat} (hp : u.phase = .readBusy) (hs : step u = .next t)
    (h : ∀ j, j < n → ∃ x, Host.Core.run core j t = .next x ∧ x.phase = .readBusy) :
    ∀ j, j < n + 1 → ∃ x, Host.Core.run core j u = .next x ∧ x.phase = .readBusy := by
  intro j hj
  cases j with
  | zero => exact ⟨u, rfl, hp⟩
  | succ j => rw [run_succ_of_step j hs]; exact h j (by omega)

/-- A READ served a terminated sequence within the budget succeeds (42_stream_decoder.md R139). -/
theorem run_terminated (h : ReadAt u w k bs (cs.map .byte ++ as) p (List.replicate cs.length .answer))
    (ht : Terminated cs) (hl : bs.length + cs.length ≤ w.maxLen) :
    ∃ t, Host.Core.run core cs.length u = .next t ∧
      ReadDone t w k .ok (.holds (wrapVal w (signedValue (wireSign (bs ++ cs)) (wireMag (bs ++ cs))))) as
        (p + cs.length) ∧
      ∀ j, j < cs.length → ∃ x, Host.Core.run core j u = .next x ∧ x.phase = .readBusy := by
  induction cs generalizing u bs p with
  | nil => exact absurd rfl ht.1
  | cons c cs ih =>
    cases cs with
    | nil =>
      obtain ⟨t, hs, hd⟩ := ReadAt.step_last h (terminated_single.1 ht)
      exact ⟨t, (run_succ_of_step 0 hs), hd, busy_of_step h.phase hs (by simp)⟩
    | cons d ds =>
      obtain ⟨hc, ht'⟩ := terminated_cons_cons.1 ht
      simp only [List.length_cons] at hl
      obtain ⟨t, hs, hr⟩ := ReadAt.step_more h hc (by omega)
      obtain ⟨x, hx, hd, hbusy⟩ := ih (bs := bs ++ [c]) hr ht' (by simp; omega)
      refine ⟨x, (run_succ_of_step _ hs).trans hx, ?_, busy_of_step h.phase hs hbusy⟩
      simpa [Nat.add_assoc, Nat.add_comm, Nat.add_left_comm] using hd

/-- A READ served unterminated bytes to the end of the budget overflows (42_stream_decoder.md R136). -/
theorem run_overflow (h : ReadAt u w k bs (cs.map .byte ++ as) p (List.replicate cs.length .answer))
    (hu : Unterminated cs) (hne : cs ≠ []) (hl : bs.length + cs.length = w.maxLen) :
    ∃ t, Host.Core.run core cs.length u = .next t ∧ ReadDone t w k .overflow .absent as (p + cs.length) ∧
      ∀ j, j < cs.length → ∃ x, Host.Core.run core j u = .next x ∧ x.phase = .readBusy := by
  induction cs generalizing u bs p with
  | nil => exact absurd rfl hne
  | cons c cs ih =>
    obtain ⟨hc, hu'⟩ := unterminated_cons.1 hu
    simp only [List.length_cons] at hl
    by_cases hcs : cs = []
    · subst hcs
      obtain ⟨t, hs, hd⟩ := ReadAt.step_overflow h hc (by simpa using hl)
      exact ⟨t, (run_succ_of_step 0 hs), hd, busy_of_step h.phase hs (by simp)⟩
    · have hpos : 1 ≤ cs.length := List.length_pos_iff.2 hcs
      obtain ⟨t, hs, hr⟩ := ReadAt.step_more h hc (by omega)
      obtain ⟨x, hx, hd, hbusy⟩ := ih (bs := bs ++ [c]) hr hu' hcs (by simp; omega)
      refine ⟨x, (run_succ_of_step _ hs).trans hx, ?_, busy_of_step h.phase hs hbusy⟩
      simpa [Nat.add_assoc, Nat.add_comm, Nat.add_left_comm] using hd

/-- A READ served unterminated bytes and then End is truncated (42_stream_decoder.md R138). -/
theorem run_truncated
    (h : ReadAt u w k bs (cs.map .byte ++ .endOfInput :: as) p (List.replicate (cs.length + 1) .answer))
    (hu : Unterminated cs) (hl : bs.length + cs.length < w.maxLen) :
    ∃ t, Host.Core.run core (cs.length + 1) u = .next t ∧ ReadDone t w k .truncated .absent as (p + cs.length) ∧
      ∀ j, j < cs.length + 1 → ∃ x, Host.Core.run core j u = .next x ∧ x.phase = .readBusy := by
  induction cs generalizing u bs p with
  | nil =>
    obtain ⟨t, hs, hd⟩ := ReadAt.step_end h
    exact ⟨t, (run_succ_of_step 0 hs), hd, busy_of_step h.phase hs (by simp)⟩
  | cons c cs ih =>
    obtain ⟨hc, hu'⟩ := unterminated_cons.1 hu
    simp only [List.length_cons] at hl
    obtain ⟨t, hs, hr⟩ := ReadAt.step_more h hc (by omega)
    obtain ⟨x, hx, hd, hbusy⟩ := ih (bs := bs ++ [c]) hr hu' (by simp; omega)
    refine ⟨x, (run_succ_of_step _ hs).trans hx, ?_, busy_of_step h.phase hs hbusy⟩
    simpa [Nat.add_assoc, Nat.add_comm, Nat.add_left_comm] using hd

end

/-- Answers that suffice begin in one of three ways: a terminated sequence within the budget, unterminated bytes short of the
budget and then End, or unterminated bytes that fill it (42_stream_decoder.md R144). -/
theorem answers_shape {n : Nat} {as : List Answer} (h : n ≤ as.length ∨ ∃ a ∈ as, a.endsRead = true) :
    (∃ bs rest, as = bs.map .byte ++ rest ∧ Terminated bs ∧ bs.length ≤ n) ∨
      (∃ bs rest, as = bs.map .byte ++ .endOfInput :: rest ∧ Unterminated bs ∧ bs.length < n) ∨
      (∃ bs rest, as = bs.map .byte ++ rest ∧ Unterminated bs ∧ bs.length = n) := by
  have hnil : Unterminated [] := fun k hk => absurd hk (Nat.not_lt_zero k)
  induction as generalizing n with
  | nil => exact .inr (.inr ⟨[], [], rfl, hnil, (by simpa using h : n = 0).symm⟩)
  | cons a as ih =>
    cases n with
    | zero => exact .inr (.inr ⟨[], _, rfl, hnil, rfl⟩)
    | succ n =>
      cases a with
      | endOfInput => exact .inr (.inl ⟨[], as, rfl, hnil, Nat.succ_pos n⟩)
      | byte b =>
        cases hb : b.getLsbD 7 with
        | false => exact .inl ⟨[b], as, rfl, terminated_single.2 hb, by simp⟩
        | true =>
          have h' : n ≤ as.length ∨ ∃ a ∈ as, a.endsRead = true := by
            have hb' : (Answer.byte b).endsRead = false := by rw [Answer.endsRead, hb]; rfl
            simpa [hb'] using h
          rcases ih h' with ⟨bs, rest, rfl, ht, hl⟩ | ⟨bs, rest, rfl, hu, hl⟩ | ⟨bs, rest, rfl, hu, hl⟩
          · cases bs with
            | nil => exact absurd rfl ht.1
            | cons d ds =>
              exact .inl ⟨b :: d :: ds, rest, rfl, terminated_cons_cons.2 ⟨hb, ht⟩, Nat.succ_le_succ hl⟩
          · exact .inr (.inl ⟨b :: bs, rest, rfl, unterminated_cons.2 ⟨hb, hu⟩, Nat.succ_lt_succ hl⟩)
          · exact .inr (.inr ⟨b :: bs, rest, rfl, unterminated_cons.2 ⟨hb, hu⟩, congrArg Nat.succ hl⟩)

/-- The first step of `readScript`: the READ begins. -/
theorem readScript_starts {s : State} (w : Width) (k : SourceId) (n : Nat) (hw : Sources.wf s.sources = true)
    (ha : s.accepts = true) :
    ∃ u, step (readScript s w k n) = .next u ∧
      ReadAt u w k [] (s.source k).pending (s.source k).pos (List.replicate n .answer) := by
  refine ⟨(State.startRead { s with inputs := List.replicate n .answer } w k), ?_, ?_⟩
  · simp only [step, readScript, perform, issue, decode_encode_readOf, exec_readOf]
    have : State.accepts { s with inputs := List.replicate n .answer } = true := ha
    simp only [State.whenAccepted, this, if_true]
  · exact ⟨rfl, rfl, rfl, fun h => absurd rfl h, fun h => absurd rfl h, rfl, rfl, rfl, rfl, hw⟩

end Sys2Proof.Machine
end

