-- ==== Sys2Proof/Laws/Step.lean ====
section
/-! SUPPORT. Everything a command and a step can do, each said once. -/

namespace Sys2Proof.Machine

/-- A command never stops, and acts only where it is accepted (10_state.md R27). -/
theorem exec_eq (i : Instr) (s : State) : ∃ f, exec i s = .next (s.whenAccepted f) := by
  cases i <;> exact ⟨_, rfl⟩

/-- A command that is not accepted has no effect. -/
theorem exec_of_not_accepted (i : Instr) {s : State} (h : s.accepts = false) : exec i s = .next s := by
  obtain ⟨f, hf⟩ := exec_eq i s
  rw [hf, State.whenAccepted, h]; rfl

/-- What an accepted command does, by its family. -/
theorem exec_of_accepted (i : Instr) {s : State} (h : s.accepts = true) :
    exec i s = .next (match i with
      | .encode32 v dst => runEncode .w32 (signOf v) (magnitudeOf v) dst s
      | .encode64 v dst => runEncode .w64 (signOf v) (magnitudeOf v) dst s
      | .decode32 src => runDecode .w32 src s
      | .decode64 src => runDecode .w64 src s
      | .readVarint32 k => s.startRead .w32 k
      | .readVarint64 k => s.startRead .w64 k) := by
  cases i <;>
    simp only [exec, execEncode32, execEncode64, execDecode32, execDecode64, execReadVarint32, execReadVarint64,
      State.whenAccepted, h, if_true]

theorem accepts_iff (s : State) : s.accepts = true ↔ s.phase = .idle ∧ s.fault = .none := by simp [State.accepts]

theorem not_accepts_of_busy {s : State} (h : s.phase ≠ .idle) : s.accepts = false := by simp [State.accepts, h]

theorem not_accepts_of_faulted {s : State} (h : s.fault ≠ .none) : s.accepts = false := by simp [State.accepts, h]

/-- Everything the machine does when the host reads a register. -/
theorem step_hostRead {s : State} {r : HostReg} {rest : List Input} (h : s.inputs = .hostRead r :: rest) :
    step s = .next (hostRead r { s with inputs := rest }) := by
  rw [step, h]; rfl

/-- A register read changes only what the host has read and the mark of a fault of its program. -/
theorem hostRead_eq (r : HostReg) (s : State) :
    hostRead r s = { s with hostData := some (s.hostView r), hostFault := s.hostFault.or (s.hostReadFault r) } := rfl

/-- Another agent that is admitted takes one answer, or finds none. -/
theorem agentTake_next {k : SourceId} {s t : State} (h : agentTake k s = .next t) :
    t = s ∨ ∃ a as, (s.source k).pending = a :: as ∧ t = s.setSource k ((s.source k).answered a as) := by
  unfold agentTake at h
  split at h
  · cases h
  · split at h
    · cases h; exact .inl rfl
    · next a as hp => cases h; exact .inr ⟨a, as, hp, rfl⟩

/-- A request that is not refused is a command, or a reserved CMD word. -/
theorem issue_next {r : Request} {s t : State} (h : issue r s = .next t) :
    (∃ i, decode r = .instr i ∧ exec i s = .next t) ∨
      (decode r = .illegalCommand r.cmd ∧ decodeCmd r.cmd = none ∧ t = illegalCommand r.cmd s) := by
  unfold issue at h
  cases hc : decodeCmd r.cmd with
  | none => rw [decode_of_none hc] at h; cases h; exact .inr ⟨decode_of_none hc, rfl, rfl⟩
  | some fw =>
    split at h
    · next i hd => exact .inl ⟨i, hd, h⟩
    · next c hd =>
      exfalso
      unfold decode at hd
      rw [hc] at hd
      revert hd
      rcases fw with ⟨f, w⟩
      cases f <;> cases w <;> dsimp only <;> (try split) <;> intro hd <;> cases hd
    · cases h

/-- A step that goes on had no input, or performed the next one. -/
theorem step_next {s t : State} (h : step s = .next t) :
    (s.inputs = [] ∧ t = s) ∨
      ∃ i rest, s.inputs = i :: rest ∧ perform i { s with inputs := rest } = .next t := by
  unfold step at h
  split at h
  · next hi => cases h; exact .inl ⟨hi, rfl⟩
  · next i rest hi => exact .inr ⟨i, rest, hi, h⟩

/-- What serving an answer never touches. -/
theorem serveAnswer_frame (s : State) :
    s.serveAnswer.mem = s.mem ∧ s.serveAnswer.fault = s.fault ∧ s.serveAnswer.faultInfo = s.faultInfo ∧
      s.serveAnswer.inputs = s.inputs ∧ s.serveAnswer.hostData = s.hostData := by
  unfold State.serveAnswer
  split
  · split
    · exact ⟨rfl, rfl, rfl, rfl, rfl⟩
    · next a as _ =>
      obtain ⟨h1, -, h3, h4, h5, h6, -⟩ :=
        readStep_frame (s.setSource s.sdSource ((s.source s.sdSource).answered a as)) a
      exact ⟨h1, h3, h4, h5, h6⟩
  · exact ⟨rfl, rfl, rfl, rfl, rfl⟩

@[simp] theorem wrapVal_width (w : Width) (n : Int) : (wrapVal w n).width = w := by cases w <;> rfl

end Sys2Proof.Machine
end

