-- ==== Sys2Proof/Tests/Slice0.lean ====
section
/-! SUPPORT. Tests: words and vectors of the spec (spec/95_test_vectors.md unless a rule is named), ill-formed requests,
and for each statement a state and operands that meet its hypotheses. -/

namespace Sys2Proof.Tests

open Sys2Proof Sys2Proof.Machine

/-! ### Helpers -/

/-- A reset block beside a host memory that holds `bs` from address 0 on. -/
def holding (bs : List Byte) : State := State.reset.sliceWrite ⟨0, bs.length⟩ 0 bs

/-- A reset block with a byte source 1 that will give `as`. -/
def sourcing (as : List Answer) : State := State.reset.setSource 1 ⟨as, 0⟩

/-- A READ from source 1 that has consumed `n` bytes and now holds the magnitude `m`; the source has `as` to give and
answers next. -/
def reading (w : Width) (n m : Nat) (as : List Answer) : State :=
  { sourcing as with
    phase := .readBusy, sdState := if n = 0 then .awaitFirstByte else .awaitContinuation, sdN := n, sdMag := m,
    sdW := w, sdSource := 1, inputs := [.answer] }

/-- A block that has faulted. -/
def faulted : State := State.reset.raiseFault .dstTooSmall (.cap 4)

/-- The host reads register `r` next. -/
def hostReading (r : HostReg) (s : State) : State := { s with inputs := [.hostRead r] }

/-- The state an outcome goes on with. -/
def nextOf : Host.Outcome State Fault Refusal → Option State
  | .next s => some s
  | .fault _ => none
  | .refused _ => none

/-- STATUS, VALUE and LEN. -/
def results (t : State) : Option Status × ResultReg Val × ResultReg Nat := (t.status, t.value, t.len)

/-- LEN and the first bytes of an encoding at address 0. -/
def encoding (n : Nat) (o : Host.Outcome State Fault Refusal) : Option (ResultReg Nat × List Byte) :=
  (nextOf o).map fun t => (t.len, firstBytes t ⟨0, n⟩ n)

/-! ### Decode: the six words, bit by bit from 30_encoding.md R72 (RSVD WIDE OP) -/

theorem test_word_encode32 : decodeTableWord 8 0b00000_0_00 = some (.encode32 0 ⟨0, 0⟩) := by decide
theorem test_word_decode32 : decodeTableWord 8 0b00000_0_01 = some (.decode32 ⟨0, 0⟩) := by decide
theorem test_word_readVarint32 : decodeTableWord 8 0b00000_0_10 = some (.readVarint32 0) := by decide
theorem test_word_encode64 : decodeTableWord 8 0b00000_1_00 = some (.encode64 0 ⟨0, 0⟩) := by decide
theorem test_word_decode64 : decodeTableWord 8 0b00000_1_01 = some (.decode64 ⟨0, 0⟩) := by decide
theorem test_word_readVarint64 : decodeTableWord 8 0b00000_1_10 = some (.readVarint64 0) := by decide
theorem test_words_reserved : [0x03, 0x07, 0x08, 0x10, 0x80, 0xFF].all (fun w => decodeTableWord 8 w == none) = true := by
  decide
/-- Six of the 256 CMD words are legal (R74). -/
theorem test_words_count : ((List.range 256).filter fun w => (decodeCmd (BitVec.ofNat 8 w)).isSome).length = 6 := by
  decide
/-- The encoder's words are those of R70. -/
theorem test_encode_words :
    [encode (.encode32 7 ⟨0, 9⟩), encode (.decode32 ⟨0, 9⟩), encode (.readVarint32 3), encode (.encode64 7 ⟨0, 9⟩),
      encode (.decode64 ⟨0, 9⟩), encode (.readVarint64 3)].map Request.cmd = [0x00#8, 0x01#8, 0x02#8, 0x04#8, 0x05#8, 0x06#8] := by
  decide
/-- P1: `encode32 -300, B+2` on a buffer of 8 bytes has CAP 6. -/
theorem test_assemble_subbuffer :
    decode (assemble (.encode32 (-300) (.plus ⟨0, 8⟩ 2))) = .instr (.encode32 0xFFFFFED4#32 ⟨2, 6⟩) := by decide

/-! ### Requests that are not well formed -/

theorem test_wellFormed : Request.wellFormed ⟨0x06#8, 0, ⟨0, 0⟩, 1⟩ = true := by decide
theorem test_illFormed_reserved : Request.wellFormed ⟨0x09#8, 0, ⟨0, 0⟩, 0⟩ = false := by decide
theorem test_illFormed_op : Request.wellFormed ⟨0x07#8, 0, ⟨0, 0⟩, 0⟩ = false := by decide
theorem test_illFormed_value32 : Request.wellFormed ⟨0x00#8, 2147483648, ⟨0, 5⟩, 0⟩ = false := by decide
theorem test_illFormed_value64 : Request.wellFormed ⟨0x04#8, -9223372036854775809, ⟨0, 10⟩, 0⟩ = false := by decide

/-! ### The Encoder (sections 1.2, 1.4 and 2) -/

theorem test_encode32_minInt :
    encoding 6 (exec (.encode32 0x80000000#32 ⟨0, 5⟩) (holding [0x55, 0x55, 0x55, 0x55, 0x55, 0x55])) =
      some (.holds 5, [0xFF, 0xFF, 0xFF, 0xFF, 0x0F, 0x55]) := by decide
theorem test_encode32_neg65 :
    encoding 3 (exec (.encode32 0xFFFFFFBF#32 ⟨0, 5⟩) (holding [0x55, 0x55, 0x55])) =
      some (.holds 2, [0xC0, 0x01, 0x55]) := by decide
theorem test_encode64_two62 :
    encoding 10 (exec (.encode64 0x4000000000000000#64 ⟨0, 10⟩) State.reset) =
      some (.holds 10, [0x80, 0x80, 0x80, 0x80, 0x80, 0x80, 0x80, 0x80, 0x80, 0x01]) := by decide
theorem test_encode64_tenTo18 :
    encoding 9 (exec (.encode64 1000000000000000000#64 ⟨0, 10⟩) State.reset) =
      some (.holds 9, [0x80, 0x80, 0xA0, 0xF6, 0xF4, 0xAC, 0xDB, 0xE0, 0x1B]) := by decide
/-- encode32 0 with CAP = 4. -/
theorem test_encode32_dstTooSmall :
    (nextOf (exec (.encode32 0 ⟨0, 4⟩) State.reset)).map (fun t => (t.fault, t.faultInfo, t.status, t.mem.length)) =
      some (.dstTooSmall, some (.cap 4), none, 0) := by decide

/-! ### The Buffer Decoder (section 3) -/

theorem test_decode32_outOfRange :
    (nextOf (exec (.decode32 ⟨0, 5⟩) (holding [0x80, 0x80, 0x80, 0x80, 0x10]))).map results =
      some (some .ok, .holds (.v32 0x80000000#32), .holds 5) := by decide
/-- Capped; the byte of index 5 is not read. -/
theorem test_decode32_capped :
    (nextOf (exec (.decode32 ⟨0, 6⟩) (holding [0xBF, 0xFF, 0xFF, 0xFF, 0xFF, 0x01]))).map results =
      some (some .ok, .holds (.v32 0xFFFFFFFF#32), .holds 5) := by decide
theorem test_decode64_minInt :
    (nextOf (exec (.decode64 ⟨0, 10⟩)
      (holding [0xFF, 0xFF, 0xFF, 0xFF, 0xFF, 0xFF, 0xFF, 0xFF, 0xFF, 0x01]))).map results =
      some (some .ok, .holds (.v64 0x8000000000000000#64), .holds 10) := by decide
theorem test_decode64_exhausted :
    (nextOf (exec (.decode64 ⟨0, 9⟩) (holding [0xFF, 0xFF, 0xFF, 0xFF, 0xFF, 0xFF, 0xFF, 0xFF, 0xFF]))).map results =
      some (some .ok, .holds (.v64 0), .holds 0) := by decide

/-! ### The Stream Decoder (section 4) -/

theorem test_readVarint32_starts :
    (nextOf (exec (.readVarint32 1) State.reset)).map (fun t => (t.phase, t.sdState, t.sdN, t.sdW, t.sdSource)) =
      some (.readBusy, .awaitFirstByte, 0, .w32, 1) := by decide
/-- `0x80×4, 0x10`: the fifth byte completes the READ with 2^31 reduced. -/
theorem test_readVarint32_lastByte :
    (nextOf (step (reading .w32 4 0 [.byte 0x10, .byte 0x21]))).map
        (fun t => (results t, t.phase, t.source 1)) =
      some ((some .ok, .holds (.v32 0x80000000#32), .absent), .idle, ⟨[.byte 0x21], 1⟩) := by decide
/-- `0x80×10`: the tenth byte with the more flag is an overflow. -/
theorem test_readVarint64_overflow :
    (nextOf (step (reading .w64 9 0 [.byte 0x80]))).map (fun t => (results t, t.phase)) =
      some ((some .overflow, .absent, .absent), .idle) := by decide
/-- `End` before any byte is truncation and consumes nothing. -/
theorem test_readVarint64_end :
    (nextOf (step (reading .w64 0 0 [.endOfInput, .byte 0x21]))).map (fun t => (results t, t.source 1)) =
      some ((some .truncated, .absent, .absent), ⟨[.byte 0x21], 0⟩) := by decide
/-- 42_stream_decoder.md R135: the second byte's chunk is folded in at bit 6. -/
theorem test_read_continues :
    (nextOf (step (reading .w32 1 0x3F [.byte 0x81]))).map (fun t => (t.phase, t.sdMag, t.sdN)) =
      some (.readBusy, 127, 2) := by decide

/-! ### Faults, reset, the table's question -/

/-- P4: a reserved command faults; a faulted block accepts nothing; reset clears it. -/
theorem test_illegalCommand :
    (nextOf (step (State.reset.withFetchWord 8 0x07))).map (fun t => (t.fault, t.faultInfo)) =
      some (.illegalCommand, some (.cmd 0x07)) := by decide
theorem test_faulted_accepts_nothing :
    (nextOf (step (faulted.withFetchWord 8 0x05))).map (fun t => (t.fault, t.status)) =
      some (.dstTooSmall, none) := by decide
theorem test_reset_clears :
    (nextOf (step { faulted with inputs := [.reset] })).map (fun t => (t.fault, t.faultInfo, t.phase)) =
      some (.none, none, .idle) := by decide
/-- 10_state.md R25: a result read before any completion; R35: FAULT_INFO has no value then; R26: LEN after a READ. -/
theorem test_read_value_at_reset :
    (nextOf (step (hostReading .value State.reset))).map (fun t => (t.hostData, t.hostFault)) =
      some (some (.value .noValue), some (.beforeCompletion .value)) := by decide
theorem test_read_faultInfo_at_reset :
    (nextOf (step (hostReading .faultInfo State.reset))).map (fun t => (t.hostData, t.hostFault)) =
      some (some (.faultInfo none), none) := by decide
theorem test_read_len_after_read :
    (nextOf (step (hostReading .len (State.reset.complete .truncated none none .w32)))).map
        (fun t => (t.hostData, t.hostFault)) = some (some (.len .absent), none) := by decide
theorem test_fetchWord_decode64 :
    (nextOf (step (State.reset.withFetchWord 8 0x05))).map results = some (some .ok, .holds (.v64 0), .holds 0) := by
  decide

/-! ### Witnesses: the hypotheses of the statements can be met -/

/-- The invariant, from its clauses. -/
theorem inv_of (s : State) (h : Memory.wf s.mem && Sources.wf s.sources && s.faultOk && s.resultOk && s.sdOk &&
    decide (s.fault ≠ .none → s.phase = .idle) = true) : s.Inv := by
  simp only [Bool.and_eq_true, decide_eq_true_eq] at h
  obtain ⟨⟨⟨⟨⟨h1, h2⟩, h3⟩, h4⟩, h5⟩, h6⟩ := h
  exact ⟨h1, h2, h3, h6, h4, h5⟩

theorem test_witness_CommandWords :
    (0x0B#8).extractLsb' 3 5 ≠ 0#5 ∧ (0x07#8).extractLsb' 0 2 = 0b11#2 ∧ (0x07#8).extractLsb' 3 5 = 0#5 ∧
      decode ⟨0x00#8, -2147483648, ⟨0, 5⟩, 0⟩ = .instr (.encode32 0x80000000#32 ⟨0, 5⟩) ∧
      decode ⟨0x04#8, 9223372036854775807, ⟨0, 10⟩, 0⟩ = .instr (.encode64 0x7FFFFFFFFFFFFFFF#64 ⟨0, 10⟩) := by
  decide

theorem test_witness_DecodedRequest :
    decode ⟨0x00#8, -5, ⟨0, 5⟩, 3⟩ = .instr (.encode32 0xFFFFFFFB#32 ⟨0, 5⟩) ∧
      decode ⟨0x06#8, 9, ⟨1, 2⟩, 3⟩ = .instr (.readVarint64 3) := by decide

/-- `B+k` at both ends of its range, and the reserved codes of `.byte` lines. -/
theorem test_witness_CommandText :
    Width.w32.fits 2147483647 = true ∧ Width.w64.fits (-9223372036854775808) = true ∧ 0 ≤ (Slice.mk 0 8).len ∧
      8 ≤ (Slice.mk 0 8).len ∧ (0x08#8).extractLsb' 3 5 ≠ 0#5 ∧ (0x07#8).extractLsb' 0 2 = 0b11#2 := by decide

theorem test_witness_StepRuns :
    (State.reset.withFetchWord 8 0x01).inputs = [.issue (tableRequest 8 0x01)] ∧
      decode (tableRequest 8 0x01) = .instr (.decode32 ⟨0, 0⟩) ∧
      decodeTableWord 8 0x06 = some (.readVarint64 0) := by decide

theorem test_witness_Bias :
    (0x80000000#32).toInt < 0 ∧ (0xFFFFFFFF#32).toInt < 0 ∧ (0x8000000000000000#64).toInt < 0 := by decide

theorem test_witness_MagnitudeRegister : Width.w64.bits ≤ 64 ∧ Width.w32.bits ≤ 34 := by decide

/-- The ranges of ReconstructionIsExactInRange at their ends. -/
theorem test_witness_Reconstruction :
    reconstruct .w32 true (2 ^ 31 - 1) = .v32 0x80000000#32 ∧
      reconstruct .w64 false (2 ^ 63 - 1) = .v64 0x7FFFFFFFFFFFFFFF#64 := by decide

theorem test_witness_EncodeCompletes :
    Width.w32.fits (-2147483648) = true ∧ State.reset.accepts = true ∧ Width.w32.maxLen ≤ (Slice.mk 0 5).len ∧
      Width.w64.fits 9223372036854775807 = true ∧ Width.w64.maxLen ≤ (Slice.mk 3 10).len := by decide

theorem test_witness_EncodeOutput :
    State.reset.Inv ∧ ∃ t, exec (encodeOf .w64 (-64) ⟨0, 10⟩) State.reset = .next t ∧ t.len = .holds 1 :=
  ⟨inv_of _ (by decide), _, rfl, by decide⟩

theorem test_witness_EncodeSmall : State.reset.accepts = true ∧ (Slice.mk 0 4).len < 5 ∧ (Slice.mk 0 9).len < 10 := by
  decide

theorem test_witness_EncodeVariants : State.reset.accepts = true ∧ 10 ≤ (Slice.mk 0 10).len := by decide

theorem test_witness_DecodeTerminated :
    (holding [0xBF, 0x01]).accepts = true ∧ Terminated [0xBF, 0x01] ∧ [0xBF#8, 0x01].length ≤ Width.w32.maxLen ∧
      SliceHolds (holding [0xBF, 0x01]) ⟨0, 3⟩ [0xBF, 0x01] := by decide

theorem test_witness_DecodeCaps :
    (holding [0x80, 0x80, 0x80, 0x80, 0xFF]).accepts = true ∧ Unterminated [0x80, 0x80, 0x80, 0x80, 0xFF] ∧
      [0x80#8, 0x80, 0x80, 0x80, 0xFF].length = Width.w32.maxLen ∧
      SliceHolds (holding [0x80, 0x80, 0x80, 0x80, 0xFF]) ⟨0, 6⟩ [0x80, 0x80, 0x80, 0x80, 0xFF] := by decide

theorem test_witness_DecodeInsufficient :
    (holding [0x80, 0xFF]).accepts = true ∧ (Slice.mk 0 2).len < Width.w64.maxLen ∧
      (∀ k, k < 2 → ((holding [0x80, 0xFF]).memRead (0 + k)).getLsbD 7 = true) ∧
      ∃ t, exec (decodeOf .w64 ⟨0, 0⟩) State.reset = .next t ∧ t.len = .holds 0 :=
  ⟨by decide, by decide, by decide, _, rfl, by decide⟩

theorem test_witness_DecodeAlways : (holding [0xFF]).accepts = true := by decide

theorem test_witness_DecodeDepends :
    ∃ t, exec (decodeOf .w32 ⟨0, 2⟩) (holding [0x21, 0xFF]) = .next t ∧ t.len = .holds 1 ∧
      (1 : Nat) ≤ (Slice.mk 0 1).len ∧
      ∀ k, k < 1 → (holding [0x21]).memRead (0 + k) = (holding [0x21, 0xFF]).memRead (0 + k) :=
  ⟨_, rfl, by decide, by decide, by decide⟩

theorem test_witness_DecodeIdempotent : ∃ t, exec (decodeOf .w32 ⟨0, 2⟩) (holding [0x21, 0xFF]) = .next t := ⟨_, rfl⟩

theorem test_witness_ReadStarts : State.reset.accepts = true ∧ faulted.accepts = false := by decide

theorem test_witness_ReadFirstByte :
    (reading .w32 0 0 [.byte 0xC1]).Inv ∧ (reading .w32 0 0 [.byte 0xC1]).sdState = .awaitFirstByte ∧
      ((reading .w32 0 0 [.byte 0xC1]).source 1).pending = [.byte 0xC1] ∧ (0xC1#8).getLsbD 7 = true ∧
      (reading .w32 0 0 [.byte 0x41]).Inv ∧ (0x41#8).getLsbD 7 = false :=
  ⟨inv_of _ (by decide), by decide, by decide, by decide, inv_of _ (by decide), by decide⟩

/-- More bytes wanted with one short of the budget to go, the budget filled, the last byte of a full budget. -/
theorem test_witness_ReadContinuation :
    (reading .w32 3 0 [.byte 0x80]).Inv ∧ (reading .w32 3 0 [.byte 0x80]).sdN + 1 < Width.w32.maxLen ∧
      (reading .w32 4 0 [.byte 0x80]).Inv ∧ (reading .w32 4 0 [.byte 0x80]).sdN + 1 = Width.w32.maxLen ∧
      (reading .w64 9 0 [.byte 0x01]).Inv ∧ (reading .w64 9 0 [.byte 0x01]).sdState = .awaitContinuation ∧
      (0x01#8).getLsbD 7 = false :=
  ⟨inv_of _ (by decide), by decide, inv_of _ (by decide), by decide, inv_of _ (by decide), by decide, by decide⟩

theorem test_witness_ReadEnd :
    (reading .w64 9 0 [.endOfInput]).Inv ∧ (reading .w64 9 0 [.endOfInput]).phase = .readBusy ∧
      (reading .w64 9 0 [.endOfInput]).inputs = [.answer] ∧
      ((reading .w64 9 0 [.endOfInput]).source 1).pending = [.endOfInput] :=
  ⟨inv_of _ (by decide), by decide, by decide, by decide⟩

theorem test_witness_ReadTakesOne :
    (reading .w64 2 5 [.byte 0x80, .endOfInput]).Inv ∧
      ((reading .w64 2 5 [.byte 0x80, .endOfInput]).source 1).pending = .byte 0x80 :: [.endOfInput] :=
  ⟨inv_of _ (by decide), by decide⟩

theorem test_witness_ReadHeld :
    (∃ t, (reading .w32 2 5 []).phase = .readBusy ∧ ((reading .w32 2 5 []).source 1).pending = [] ∧
      step (reading .w32 2 5 []) = .next t) ∧
      (∃ t, step { reading .w32 2 5 [] with inputs := [.hostWrite 0 1] } = .next t) ∧
      (∃ i, decode (tableRequest 8 0) = .instr i) ∧ State.reset.inputs = [] :=
  ⟨⟨_, by decide, by decide, rfl⟩, ⟨_, rfl⟩, ⟨_, rfl⟩, rfl⟩

/-- A source with a full budget of answers, and the short sources of section 4: `End`; `0x80, End`; `0x00`. -/
theorem test_witness_ReadCompletes :
    (sourcing [.byte 0x80, .endOfInput, .byte 1, .byte 2, .byte 3]).Inv ∧
      (sourcing [.byte 0x80, .endOfInput, .byte 1, .byte 2, .byte 3]).accepts = true ∧
      AnswersSuffice .w32 ((sourcing [.byte 0x80, .endOfInput, .byte 1, .byte 2, .byte 3]).source 1).pending ∧
      AnswersSuffice .w32 ((sourcing [.endOfInput]).source 1).pending ∧
      AnswersSuffice .w64 ((sourcing [.byte 0x80, .endOfInput]).source 1).pending ∧
      AnswersSuffice .w64 ((sourcing [.byte 0x00]).source 1).pending ∧ (sourcing [.byte 0x00]).Inv :=
  ⟨inv_of _ (by decide), by decide, by decide, by decide, by decide, by decide, inv_of _ (by decide)⟩

theorem test_witness_ReadVariants :
    (sourcing [.byte 0xFF, .byte 0xFF, .byte 0xFF, .byte 0xFF, .byte 0x07]).Inv ∧
      Terminated [0xFF, 0xFF, 0xFF, 0xFF, 0x07] ∧ [0xFF#8, 0xFF, 0xFF, 0xFF, 0x07].length ≤ 5 ∧
      wireMag [0xFF, 0xFF, 0xFF, 0xFF, 0x07] < 2 ^ 31 ∧
      ((sourcing [.byte 0xFF, .byte 0xFF, .byte 0xFF, .byte 0xFF, .byte 0x07]).source 1).pending =
        [0xFF, 0xFF, 0xFF, 0xFF, 0x07].map Answer.byte ++ [] :=
  ⟨inv_of _ (by decide), by decide, by decide, by decide, by decide⟩

theorem test_witness_RoundTrip :
    Width.w32.fits (-65) = true ∧ State.reset.Inv ∧
      (∃ t, exec (encodeOf .w32 (-65) ⟨0, 5⟩) State.reset = .next t ∧ t.len = .holds 2 ∧
        firstBytes t ⟨0, 5⟩ 2 = [0xC0, 0x01] ∧ t.accepts = true ∧ SliceHolds t ⟨0, 7⟩ [0xC0, 0x01]) ∧
      (sourcing [.byte 0xC0, .byte 0x01, .endOfInput]).Inv ∧
      ((sourcing [.byte 0xC0, .byte 0x01, .endOfInput]).source 1).pending =
        [0xC0, 0x01].map Answer.byte ++ [.endOfInput] :=
  ⟨by decide, inv_of _ (by decide), ⟨_, rfl, by decide, by decide, by decide, by decide⟩, inv_of _ (by decide), by decide⟩

/-- An uncapped and a capped DECODE, and a source that gives the bytes the first one consumed. -/
theorem test_witness_BufferAndStream :
    (∃ t, exec (decodeOf .w32 ⟨0, 2⟩) (holding [0xBF, 0x01]) = .next t ∧ t.len = .holds 2) ∧
      firstBytes (holding [0xBF, 0x01]) ⟨0, 2⟩ 2 = [0xBF, 0x01] ∧
      (∃ t, exec (decodeOf .w32 ⟨0, 5⟩) (holding [0x80, 0x80, 0x80, 0x80, 0x80]) = .next t ∧ t.len = .holds 5) ∧
      (sourcing [.byte 0xBF, .byte 0x01]).Inv ∧
      ((sourcing [.byte 0xBF, .byte 0x01]).source 1).pending = [0xBF, 0x01].map Answer.byte ++ [] :=
  ⟨⟨_, rfl, by decide⟩, by decide, ⟨_, rfl, by decide⟩, inv_of _ (by decide), by decide⟩

theorem test_witness_NotAccepted :
    faulted.fault ≠ .none ∧ (reading .w32 0 0 []).phase ≠ .idle ∧
      decode (tableRequest 8 3) = .illegalCommand 3 := by decide

theorem test_witness_ReservedCommand :
    (State.reset.withFetchWord 8 0xFF).inputs = [.issue (tableRequest 8 0xFF)] ∧
      (State.reset.withFetchWord 8 0xFF).phase = .idle ∧ (State.reset.withFetchWord 8 0xFF).fault = .none ∧
      (tableRequest 8 0xFF).cmd.extractLsb' 3 5 ≠ 0#5 ∧ (tableRequest 8 0x03).cmd.extractLsb' 0 2 = 0b11#2 := by decide

theorem test_witness_Sticky :
    (faulted.withFetchWord 8 0).Inv ∧ (faulted.withFetchWord 8 0).fault ≠ .none ∧
      (∀ rest, (faulted.withFetchWord 8 0).inputs ≠ .reset :: rest) ∧
      ∃ t, step (faulted.withFetchWord 8 0) = .next t :=
  ⟨inv_of _ (by decide), by decide, fun _ h => by simp [State.withFetchWord] at h, _, rfl⟩

theorem test_witness_OnlyTheFaultRules :
    (∃ t, step (State.reset.withFetchWord 8 0x04) = .next t ∧ t.fault ≠ State.reset.fault) ∧
      (∃ t, step (State.reset.withFetchWord 8 0x03) = .next t ∧ t.faultInfo ≠ State.reset.faultInfo) :=
  ⟨⟨_, rfl, by decide⟩, ⟨_, rfl, by decide⟩⟩

theorem test_witness_OnlyEncodeWrites :
    ∃ t, step { State.reset with inputs := [.issue ⟨0x00#8, 33, ⟨7, 5⟩, 0⟩] } = .next t ∧
      t.memRead 7 ≠ State.reset.memRead 7 := ⟨_, rfl, by decide⟩

theorem test_witness_Reset :
    { reading .w32 2 5 [] with inputs := [.reset] }.inputs = [.reset] ∧
      ∃ t, step { faulted with inputs := [.reset] } = .next t ∧ faulted.fault ≠ .none ∧ t.fault = .none :=
  ⟨rfl, _, rfl, by decide, by decide⟩

/-- At reset no result register has a value; after an ENCODE VALUE is absent. -/
theorem test_witness_HostReadNoValue :
    (hostReading .value State.reset).inputs = [.hostRead .value] ∧ (hostReading .status State.reset).status = none ∧
      (hostReading .value State.reset).value = .noValue ∧ (hostReading .len State.reset).len = .noValue ∧
      (hostReading .resW State.reset).resW = none ∧ (hostReading .record State.reset).status = none ∧
      (hostReading .value (State.reset.complete .ok none (some 1) .w32)).value = .absent :=
  ⟨rfl, rfl, rfl, rfl, rfl, rfl, rfl⟩

/-- A completed DECODE; a READ, after which LEN is absent; and a read during a READ. -/
theorem test_witness_HostReadGives :
    (hostReading .faultInfo faulted).inputs = [.hostRead .faultInfo] ∧
      (hostReading .status (State.reset.complete .ok (some (.v32 7)) (some 1) .w32)).status = some .ok ∧
      (hostReading .value (State.reset.complete .ok (some (.v32 7)) (some 1) .w32)).value = .holds (.v32 7) ∧
      (hostReading .len (State.reset.complete .ok (some (.v32 7)) (some 1) .w32)).len = .holds 1 ∧
      (hostReading .record (State.reset.complete .ok (some (.v32 7)) (some 1) .w32)).resW = some .w32 ∧
      (hostReading .len (State.reset.finishRead .truncated none)).len = .absent ∧
      (hostReading .phase (reading .w32 0 0 [])).phase = .readBusy := ⟨rfl, rfl, rfl, rfl, rfl, rfl, rfl⟩

/-- A marked host that resets the block, and one whose read sets the mark. -/
theorem test_witness_HostFaultSticky :
    (∃ t, { State.reset.markHostFault (some .valueAbsent) with inputs := [.reset] }.hostFault = some .valueAbsent ∧
        step { State.reset.markHostFault (some .valueAbsent) with inputs := [.reset] } = .next t) ∧
      ∃ t, step (hostReading .len State.reset) = .next t ∧ t.hostFault ≠ (hostReading .len State.reset).hostFault :=
  ⟨⟨_, rfl, rfl⟩, _, rfl, by decide⟩

/-- The ends of the two ranges, issued to an idle block and to a faulted one. -/
theorem test_witness_OutOfRange :
    { State.reset with inputs := [.issue ⟨0x00#8, 2147483648, ⟨0, 5⟩, 0⟩] }.inputs =
        [.issue ⟨0x00#8, 2147483648, ⟨0, 5⟩, 0⟩] ∧
      { faulted with inputs := [.issue ⟨0x04#8, -9223372036854775809, ⟨0, 10⟩, 0⟩] }.inputs =
        [.issue ⟨0x04#8, -9223372036854775809, ⟨0, 10⟩, 0⟩] ∧
      (2147483648 : Int) ≥ 2 ^ 31 ∧ (-2147483649 : Int) < -2 ^ 31 ∧ (9223372036854775808 : Int) ≥ 2 ^ 63 ∧
      (-9223372036854775809 : Int) < -2 ^ 63 := by decide

theorem test_witness_HostStores :
    { sourcing [.byte 1] with inputs := [.hostWrite 3 0xAB] }.Inv ∧
      { sourcing [.byte 1] with inputs := [.supply 1 [.endOfInput]] }.Inv ∧
      { sourcing [.byte 1] with inputs := [.hostWrite 3 0xAB] }.inputs = [.hostWrite 3 0xAB] ∧
      { sourcing [.byte 1] with inputs := [.supply 1 [.endOfInput]] }.inputs = [.supply 1 [.endOfInput]] :=
  ⟨inv_of _ (by decide), inv_of _ (by decide), rfl, rfl⟩

theorem test_witness_SharedSource :
    (reading .w32 0 0 []).phase = .readBusy ∧ (reading .w32 0 0 []).sdSource = 1 ∧
      (sourcing [.byte 1]).phase = .idle ∧ Sources.wf (sourcing [.byte 1]).sources = true ∧
      ((sourcing [.byte 1]).source 1).pending = .byte 1 :: [] := by decide

theorem test_witness_StepKeepsInvariant :
    (reading .w32 4 0 [.byte 0x10]).Inv ∧ ∃ t, step (reading .w32 4 0 [.byte 0x10]) = .next t :=
  ⟨inv_of _ (by decide), _, rfl⟩

end Sys2Proof.Tests
end

section
/-! The command interface: a step that takes a request, and the request of a table word. -/

namespace Sys2Proof.Machine

/-- A step whose next input is a request issues it in the state without that input (00_scope.md R7). -/
theorem step_issue {s : State} {r : Request} {rest : List Input} (h : s.inputs = .issue r :: rest) :
    step s = issue r { s with inputs := rest } := by
  rw [step, h]; rfl

/-- A request that decodes to a command runs it (30_encoding.md R74). -/
theorem issue_of_instr {r : Request} {i : Instr} (h : decode r = .instr i) (s : State) : issue r s = exec i s := by
  rw [issue, h]

/-- A table word that decodes is a request, with zero operand ports, that decodes to the same command. -/
theorem decode_tableRequest {nbits w : Nat} {i : Instr} (h : decodeTableWord nbits w = some i) :
    decode (tableRequest nbits w) = .instr i := by
  unfold decodeTableWord at h
  split at h
  · split at h
    · next j hd => cases h; exact hd
    · cases h
    · cases h
  · cases h

/-- Settles O7: the step issues the request, which runs the command it decodes to; a table word is such a request, put in
front of the state's own inputs. -/
theorem stepRunsTheDecodedCommand : Obligations.StepRunsTheDecodedCommand := by
  refine ⟨fun s r rest i hin hdec => ?_, fun s nbits w i htab => ?_⟩
  · rw [step_issue hin, issue_of_instr hdec]
  · have hin : (s.withFetchWord nbits w).inputs = .issue (tableRequest nbits w) :: s.inputs := rfl
    rw [step_issue hin, issue_of_instr (decode_tableRequest htab)]
    rfl

end Sys2Proof.Machine
end

section
/-! What a request and an input can do, each said once: the block's part of every step. -/

namespace Sys2Proof.Machine

/-! ### Requests -/

/-- Every command is an ENCODE of an integer of its width, a DECODE or a READ (30_encoding.md R70). -/
theorem instr_cases (i : Instr) :
    (∃ w v dst, w.fits v = true ∧ i = encodeOf w v dst) ∨ (∃ w src, i = decodeOf w src) ∨ ∃ w k, i = readOf w k := by
  cases i with
  | encode32 v dst =>
    exact .inl ⟨.w32, v.toInt, dst, Laws.EncodesWellFormed.fits_toInt32 v, by simp [encodeOf]⟩
  | encode64 v dst =>
    exact .inl ⟨.w64, v.toInt, dst, Laws.EncodesWellFormed.fits_toInt64 v, by simp [encodeOf]⟩
  | decode32 src => exact .inr (.inl ⟨.w32, src, rfl⟩)
  | decode64 src => exact .inr (.inl ⟨.w64, src, rfl⟩)
  | readVarint32 k => exact .inr (.inr ⟨.w32, k, rfl⟩)
  | readVarint64 k => exact .inr (.inr ⟨.w64, k, rfl⟩)

/-- What a request that the block accepts makes of the state: the two fault rules (60_exceptions.md R162, R163), the two
kinds of completion (40_encoder.md R91, 41_buffer_decoder.md R111), and the start of a READ (42_stream_decoder.md R132). -/
inductive RequestEffect (s : State) (r : Request) : State → Prop
  | illegalCommand (hc : decodeCmd r.cmd = none) : RequestEffect s r (s.raiseFault .illegalCommand (.cmd r.cmd))
  | encodeFaults {w : Width} {v : Int} {dst : Slice} (hd : decode r = .instr (encodeOf w v dst))
      (hl : dst.len < w.maxLen) : RequestEffect s r (s.raiseFault .dstTooSmall (.cap dst.len))
  | encodeCompletes {w : Width} {v : Int} {dst : Slice} (hd : decode r = .instr (encodeOf w v dst))
      (hv : w.fits v = true) (hl : w.maxLen ≤ dst.len) :
      RequestEffect s r ((s.sliceWrite dst 0 (emitted w v)).complete .ok none (some (emitted w v).length) w)
  | decodeCompletes {w : Width} {src : Slice} {v : Val} {n : Nat} (hd : decode r = .instr (decodeOf w src))
      (hv : v.width = w) (hn : n ≤ w.maxLen) (h0 : n ≠ 0 ∨ v = wrapVal w 0) :
      RequestEffect s r (s.complete .ok (some v) (some n) w)
  | readStarts {w : Width} {k : SourceId} (hd : decode r = .instr (readOf w k)) : RequestEffect s r (s.startRead w k)

/-- An accepted command has one of the effects of a request that decodes to it. -/
theorem exec_effect {i : Instr} {r : Request} {s t : State} (hd : decode r = .instr i) (ha : s.accepts = true)
    (h : exec i s = .next t) : RequestEffect s r t := by
  rcases instr_cases i with ⟨w, v, dst, hv, rfl⟩ | ⟨w, src, rfl⟩ | ⟨w, k, rfl⟩
  · rw [exec_encodeOf dst s hv, State.whenAccepted, if_pos ha] at h
    cases h
    split_ifs with hl
    · exact .encodeFaults hd hl
    · exact .encodeCompletes hd hv (not_lt.1 hl)
  · rcases exec_decodeOf_cases (w := w) src ha with ⟨bs, hc, -, he⟩ | ⟨-, -, he⟩
    · have hpos := hc.length_pos
      cases he.symm.trans h
      exact .decodeCompletes hd (wrapVal_width _ _) hc.length_le (.inl (by omega))
    · cases he.symm.trans h
      exact .decodeCompletes hd (wrapVal_width _ _) (Nat.zero_le _) (.inr rfl)
  · rw [exec_readOf, State.whenAccepted, if_pos ha] at h
    cases h
    exact .readStarts hd

/-- A reserved CMD word that is not accepted has no effect (10_state.md R27). -/
theorem illegalCommand_of_not_accepted (c : Byte) {s : State} (h : s.accepts = false) : illegalCommand c s = s := by
  rw [illegalCommand, State.whenAccepted, h]; rfl

/-- A request whose CMD word is reserved raises its fault, where it is accepted (30_encoding.md R74). -/
theorem issue_of_illegal {r : Request} {c : Byte} (h : decode r = .illegalCommand c) (s : State) :
    issue r s = .next (illegalCommand c s) := by
  rw [issue, h]

/-- Everything a request can do: nothing where the block does not accept it, else one of the effects. -/
theorem issue_effect {r : Request} {s t : State} (h : issue r s = .next t) :
    (s.accepts = false ∧ t = s) ∨ (s.accepts = true ∧ RequestEffect s r t) := by
  cases ha : s.accepts with
  | false =>
    refine .inl ⟨rfl, ?_⟩
    rcases issue_next h with ⟨i, -, he⟩ | ⟨-, -, rfl⟩
    · rw [exec_of_not_accepted i ha] at he; cases he; rfl
    · exact illegalCommand_of_not_accepted _ ha
  | true =>
    refine .inr ⟨rfl, ?_⟩
    rcases issue_next h with ⟨i, hd, he⟩ | ⟨-, hc, rfl⟩
    · exact exec_effect hd ha he
    · rw [illegalCommand, State.whenAccepted, if_pos ha]
      exact .illegalCommand hc

/-! ### Inputs that leave the block's registers alone -/

theorem sameBlock_refl (s : State) : SameBlock s s := by constructor <;> rfl

theorem sameBlock_memWrite (s : State) (a : Nat) (b : Byte) : SameBlock s (s.memWrite a b) := by constructor <;> rfl

theorem sameBlock_setSource (s : State) (k : SourceId) (src : Source) : SameBlock s (s.setSource k src) := by
  constructor <;> rfl

theorem sameBlock_hostRead (s : State) (r : HostReg) : SameBlock s (hostRead r s) := by constructor <;> rfl

theorem sameBlock_sliceWrite (s : State) (sl : Slice) (i : Nat) (bs : List Byte) :
    SameBlock s (s.sliceWrite sl i bs) := by
  rw [State.sliceWrite_eq]; constructor <;> rfl

/-- The inputs still to come are no register of the block. -/
theorem SameBlock.of_inputs {s t : State} {ins : List Input} (h : SameBlock { s with inputs := ins } t) :
    SameBlock s t := by
  cases h; constructor <;> assumption

/-- What memory reads as depends on the byte stores alone. -/
theorem memRead_congr {s t : State} (h : t.mem = s.mem) (a : Nat) : t.memRead a = s.memRead a := by
  simp only [State.memRead, h]

/-! ### Inputs -/

/-- What an input makes of the state: a request is dropped or accepted, the block is reset or served an answer, the host
reads a register or writes a byte, a source is supplied, another agent takes an answer or finds none. -/
inductive InputEffect (s : State) : Input → State → Prop
  | dropped {r : Request} (ha : s.accepts = false) : InputEffect s (.issue r) s
  | accepted {r : Request} {t : State} (ha : s.accepts = true) (he : RequestEffect s r t) :
      InputEffect s (.issue r) t
  | reset : InputEffect s .reset s.resetBlock
  | answer : InputEffect s .answer s.serveAnswer
  | hostRead {r : HostReg} : InputEffect s (.hostRead r) (hostRead r s)
  | hostWrite {a : Nat} {b : Byte} : InputEffect s (.hostWrite a b) (s.memWrite a b)
  | supply {k : SourceId} {as : List Answer} :
      InputEffect s (.supply k as) (s.setSource k ((s.source k).supplied as))
  | agentTakes {k : SourceId} {a : Answer} {as : List Answer} (hp : (s.source k).pending = a :: as) :
      InputEffect s (.agentTake k) (s.setSource k ((s.source k).answered a as))
  | agentFindsNone {k : SourceId} : InputEffect s (.agentTake k) s

/-- Everything an input can do. -/
theorem perform_effect {i : Input} {s t : State} (h : perform i s = .next t) : InputEffect s i t := by
  cases i with
  | issue r =>
    rcases issue_effect h with ⟨ha, rfl⟩ | ⟨ha, he⟩
    · exact .dropped ha
    · exact .accepted ha he
  | reset => cases h; exact .reset
  | hostRead r => cases h; exact .hostRead
  | answer => cases h; exact .answer
  | supply k as => cases h; exact .supply
  | hostWrite a b => cases h; exact .hostWrite
  | agentTake k =>
    rcases agentTake_next h with rfl | ⟨a, as, hp, rfl⟩
    · exact .agentFindsNone
    · exact .agentTakes hp

/-- Everything a step can do: nothing without an input, else what the next input does. -/
theorem step_effect {s t : State} (h : step s = .next t) :
    t = s ∨ ∃ i rest, s.inputs = i :: rest ∧ InputEffect { s with inputs := rest } i t := by
  rcases step_next h with ⟨-, rfl⟩ | ⟨i, rest, hin, hp⟩
  · exact .inl rfl
  · exact .inr ⟨i, rest, hin, perform_effect hp⟩

end Sys2Proof.Machine
end

section
/-! The invariant of the machine: it holds at reset and every step keeps it (10_state.md R24, R25, R27, R28, R30). -/

namespace Sys2Proof.Machine

/-! ### The clauses depend on the registers they name -/

section
variable {s t : State}

theorem faultOk_congr (hf : t.fault = s.fault) (hi : t.faultInfo = s.faultInfo) : t.faultOk = s.faultOk := by
  simp only [State.faultOk, hf, hi]

theorem resultOk_congr (hst : t.status = s.status) (hv : t.value = s.value) (hn : t.len = s.len)
    (hw : t.resW = s.resW) : t.resultOk = s.resultOk := by
  simp only [State.resultOk, hst, hv, hn, hw]

theorem sdOk_congr (h : SameBlock s t) : t.sdOk = s.sdOk := by
  simp only [State.sdOk, h.phase, h.sdState, h.sdN, h.sdMag, h.sdSign, h.sdW]

/-- Between READs nothing is asked of the stream decoder (10_state.md R31). -/
theorem sdOk_of_idle (h : s.phase = .idle) : s.sdOk = true := by
  simp [State.sdOk, h]

theorem sdOk_done (hp : s.phase = .readBusy) (hd : s.sdState = .done) : s.sdOk = false := by
  simp [State.sdOk, hp, hd]

theorem sdOk_awaitFirstByte (hp : s.phase = .readBusy) (hd : s.sdState = .awaitFirstByte) :
    s.sdOk = true ↔ s.sdN = 0 ∧ s.sdMag = 0 ∧ s.sdSign = false := by
  simp [State.sdOk, hp, hd, and_assoc]

theorem sdOk_awaitContinuation (hp : s.phase = .readBusy) (hd : s.sdState = .awaitContinuation) :
    s.sdOk = true ↔ 1 ≤ s.sdN ∧ s.sdN < s.sdW.maxLen ∧ s.sdMag < 2 ^ chunkOffset s.sdN := by
  simp [State.sdOk, hp, hd, and_assoc, chunkOffset]

/-! ### The result records -/

/-- The record of an ENCODE (40_encoder.md R91). -/
theorem complete_encode_resultOk {n : Nat} {w : Width} (h1 : 1 ≤ n) (hn : n ≤ w.maxLen) :
    (s.complete .ok none (some n) w).resultOk = true := by
  simp [State.resultOk, ResultReg.ofOption, h1, hn]

/-- The record of a DECODE (41_buffer_decoder.md R111, R115). -/
theorem complete_decode_resultOk {v : Val} {n : Nat} {w : Width} (hv : v.width = w) (hn : n ≤ w.maxLen)
    (h0 : n ≠ 0 ∨ v = wrapVal w 0) : (s.complete .ok (some v) (some n) w).resultOk = true := by
  simp [State.resultOk, ResultReg.ofOption, hv, hn, h0]

/-- The record of a READ that succeeded (42_stream_decoder.md R139). -/
theorem finishRead_ok_resultOk {v : Val} (hv : v.width = s.sdW) : (s.finishRead .ok (some v)).resultOk = true := by
  simp [State.resultOk, ResultReg.ofOption, hv]

/-! ### The operations -/

/-- The invariant speaks of the block's registers and the two stores. -/
theorem State.Inv.of_sameBlock (h : s.Inv) (hb : SameBlock s t) (hm : Memory.wf t.mem = true)
    (hs : Sources.wf t.sources = true) : t.Inv where
  memWf := hm
  sourcesWf := hs
  fault := (faultOk_congr hb.fault hb.faultInfo).trans h.fault
  faultedIdle hf := hb.phase.trans (h.faultedIdle (hb.fault ▸ hf))
  result := (resultOk_congr hb.status hb.value hb.len hb.resW).trans h.result
  sd := (sdOk_congr hb).trans h.sd

/-- The inputs still to come are no part of the invariant. -/
theorem State.Inv.with_inputs (h : s.Inv) (ins : List Input) : State.Inv { s with inputs := ins } :=
  h.of_sameBlock (by constructor <;> rfl) h.memWf h.sourcesWf

theorem State.Inv.setSource (h : s.Inv) (k : SourceId) (src : Source) : (s.setSource k src).Inv :=
  h.of_sameBlock (sameBlock_setSource s k src) h.memWf (setSource_wf k src h.sourcesWf)

theorem State.Inv.sliceWrite (h : s.Inv) (sl : Slice) (i : Nat) (bs : List Byte) : (s.sliceWrite sl i bs).Inv :=
  h.of_sameBlock (sameBlock_sliceWrite s sl i bs) (sliceWrite_wf sl i bs h.memWf) (by simpa using h.sourcesWf)

/-- An idle block raises a fault that agrees with what it records. -/
theorem State.Inv.raiseFault {f : FaultReg} {info : FaultInfo} (h : s.Inv) (hp : s.phase = .idle)
    (hf : (s.raiseFault f info).faultOk = true) : (s.raiseFault f info).Inv :=
  ⟨h.memWf, h.sourcesWf, hf, fun _ => hp, h.result, sdOk_of_idle hp⟩

theorem State.Inv.complete {st : Status} {v : Option Val} {n : Option Nat} {w : Width} (h : s.Inv)
    (hr : (s.complete st v n w).resultOk = true) : (s.complete st v n w).Inv :=
  ⟨h.memWf, h.sourcesWf, h.fault, h.faultedIdle, hr, h.sd⟩

theorem State.Inv.startRead (h : s.Inv) (hf : s.fault = .none) (w : Width) (k : SourceId) : (s.startRead w k).Inv :=
  ⟨h.memWf, h.sourcesWf, h.fault, fun hne => absurd hf hne, h.result,
    (sdOk_awaitFirstByte rfl rfl).2 ⟨rfl, rfl, rfl⟩⟩

theorem State.Inv.resetBlock (h : s.Inv) : s.resetBlock.Inv :=
  ⟨h.memWf, h.sourcesWf, rfl, fun _ => rfl, rfl, rfl⟩

/-! ### A step of a READ -/

/-- After the first part of a step the count has reached at most the budget, and the magnitude lies below the offset of the
next chunk (10_state.md R30). -/
theorem absorb_range (b : Byte) (hp : s.phase = .readBusy) (h : s.sdOk = true) :
    (s.absorb b).phase = .readBusy ∧ 1 ≤ (s.absorb b).sdN ∧ (s.absorb b).sdN ≤ (s.absorb b).sdW.maxLen ∧
      (s.absorb b).sdMag < 2 ^ chunkOffset (s.absorb b).sdN := by
  cases hd : s.sdState with
  | awaitFirstByte =>
    obtain ⟨hn, -, -⟩ := (sdOk_awaitFirstByte hp hd).1 h
    have hpos : 1 ≤ s.sdW.maxLen := by cases s.sdW <;> decide
    simpa [State.absorb, hd, hp, hn] using ⟨hpos, firstChunk_lt b⟩
  | awaitContinuation =>
    obtain ⟨h1, hlt, hm⟩ := (sdOk_awaitContinuation hp hd).1 h
    simpa [State.absorb, hd, hp] using ⟨hlt, foldChunk_lt b h1 hm⟩
  | done => simp [sdOk_done hp hd] at h

/-- A READ that goes on after a byte stays in range. -/
theorem concludeByte_sdOk (b : Byte) (hp : s.phase = .readBusy) (h1 : 1 ≤ s.sdN) (hn : s.sdN ≤ s.sdW.maxLen)
    (hm : s.sdMag < 2 ^ chunkOffset s.sdN) : (s.concludeByte b).sdOk = true := by
  unfold State.concludeByte
  split_ifs with hmore hmax
  · exact sdOk_of_idle rfl
  · exact sdOk_of_idle rfl
  · exact (sdOk_awaitContinuation (s := { s with sdState := .awaitContinuation }) hp rfl).2
      ⟨h1, lt_of_le_of_ne hn hmax, hm⟩

theorem readStep_sdOk (a : Answer) (hp : s.phase = .readBusy) (h : s.sdOk = true) : (s.readStep a).sdOk = true := by
  cases a with
  | endOfInput => exact sdOk_of_idle rfl
  | byte b =>
    obtain ⟨hp', h1, hn, hm⟩ := absorb_range b hp h
    exact concludeByte_sdOk b hp' h1 hn hm

theorem absorb_resultOk (b : Byte) : (s.absorb b).resultOk = s.resultOk := by
  unfold State.absorb; split <;> rfl

/-- A step of a READ writes no result register, or all four. -/
theorem readStep_resultOk (a : Answer) (h : s.resultOk = true) : (s.readStep a).resultOk = true := by
  cases a with
  | endOfInput => rfl
  | byte b =>
    rw [State.readStep, State.concludeByte]
    split_ifs
    · exact finishRead_ok_resultOk (wrapVal_width _ _)
    · rfl
    · exact (absorb_resultOk b).trans h

theorem State.Inv.readStep (h : s.Inv) (a : Answer) (hp : s.phase = .readBusy) : (s.readStep a).Inv := by
  obtain ⟨hm, hs, hf, hi, -⟩ := readStep_frame s a
  have hnone : s.fault = .none := by
    by_contra hne
    simp [h.faultedIdle hne] at hp
  exact ⟨hm ▸ h.memWf, hs ▸ h.sourcesWf, (faultOk_congr hf hi).trans h.fault, fun hne => absurd (hf.trans hnone) hne,
    readStep_resultOk a h.result, readStep_sdOk a hp h.sd⟩

/-- Serving an answer does nothing, or is the step of a running READ on an answer its source has given. -/
theorem serveAnswer_cases (s : State) :
    s.serveAnswer = s ∨ ∃ a src, s.phase = .readBusy ∧ s.serveAnswer = (s.setSource s.sdSource src).readStep a := by
  by_cases hr : s.requests = true
  · have hreq : s.phase = .readBusy ∧ s.sdState ≠ .done := by simpa [State.requests] using hr
    cases hpend : (s.source s.sdSource).pending with
    | nil => exact .inl (serveAnswer_of_nothing hpend)
    | cons a as => exact .inr ⟨a, _, hreq.1, serveAnswer_of_pending hreq.1 hreq.2 hpend⟩
  · exact .inl (by rw [State.serveAnswer, if_neg hr])

theorem State.Inv.serveAnswer (h : s.Inv) : s.serveAnswer.Inv := by
  rcases serveAnswer_cases s with he | ⟨a, src, hp, he⟩
  · rwa [he]
  · rw [he]; exact (h.setSource _ src).readStep a hp

/-! ### Requests and inputs -/

/-- An accepted request keeps the invariant. -/
theorem State.Inv.of_requestEffect {r : Request} (h : s.Inv) (ha : s.accepts = true) (he : RequestEffect s r t) :
    t.Inv := by
  obtain ⟨hp, hf⟩ := (accepts_iff s).1 ha
  cases he with
  | illegalCommand hc => exact h.raiseFault hp (by simp [State.faultOk, hc])
  | @encodeFaults w v dst hd hl =>
    have hcap : dst.len < 10 := hl.trans_le (by cases w <;> decide)
    exact h.raiseFault hp (by simp [State.faultOk, hcap])
  | encodeCompletes hd hv hl =>
    obtain ⟨-, -, -, ⟨h1, -, -⟩, hn⟩ := emitted_spec hv
    exact (h.sliceWrite _ 0 _).complete (complete_encode_resultOk h1 hn)
  | decodeCompletes hd hv hn h0 => exact h.complete (complete_decode_resultOk hv hn h0)
  | readStarts hd => exact h.startRead hf _ _

/-- Every input keeps the invariant. -/
theorem State.Inv.of_inputEffect {i : Input} (h : s.Inv) (he : InputEffect s i t) : t.Inv := by
  cases he with
  | dropped ha => exact h
  | accepted ha he => exact h.of_requestEffect ha he
  | reset => exact h.resetBlock
  | answer => exact h.serveAnswer
  | hostRead => exact h.of_sameBlock (sameBlock_hostRead s _) h.memWf h.sourcesWf
  | hostWrite => exact h.of_sameBlock (sameBlock_memWrite s _ _) (memWrite_wf _ _ h.memWf) h.sourcesWf
  | supply => exact h.setSource _ _
  | agentTakes hp => exact h.setSource _ _
  | agentFindsNone => exact h

end

/-- Settles O43: no register has a value at reset, and the stores are empty. -/
theorem resetMeetsTheInvariant : Obligations.ResetMeetsTheInvariant :=
  ⟨reset_mem_wf, reset_sources_wf, rfl, fun _ => rfl, rfl, rfl⟩

/-- Settles O44: a step does nothing or what its input does, and every effect of an input keeps the invariant. -/
theorem everyStepKeepsTheInvariant : Obligations.EveryStepKeepsTheInvariant := by
  intro s t h hs
  rcases step_effect hs with rfl | ⟨i, rest, -, he⟩
  · exact h
  · exact (h.with_inputs rest).of_inputEffect he

end Sys2Proof.Machine
end

section
/-! Faults, the host's stores and its register reads (10_state.md sections 3 and 5, 60_exceptions.md section 1). -/

namespace Sys2Proof.Machine

/-! ### Faults and memory -/

/-- Settles O33: a faulted block accepts no request and, being idle, takes no answer; what is left acts outside it. -/
theorem faultsAreSticky : Obligations.FaultsAreSticky := by
  intro s t hinv hf hreset hs
  rcases step_effect hs with rfl | ⟨i, rest, hin, he⟩
  · exact sameBlock_refl _
  · refine SameBlock.of_inputs (ins := rest) ?_
    cases he with
    | dropped ha => exact sameBlock_refl _
    | accepted ha he => exact absurd ((accepts_iff _).1 ha).2 hf
    | reset => exact absurd hin (hreset rest)
    | answer =>
      rw [serveAnswer_of_idle (s := { s with inputs := rest }) (hinv.faultedIdle hf)]
      exact sameBlock_refl _
    | hostRead => exact sameBlock_hostRead _ _
    | hostWrite => exact sameBlock_memWrite _ _ _
    | supply => exact sameBlock_setSource _ _ _
    | agentTakes hp => exact sameBlock_setSource _ _ _
    | agentFindsNone => exact sameBlock_refl _

/-- Settles O34: of the effects of an input only reset and the two fault rules touch FAULT or FAULT_INFO. -/
theorem onlyTheFaultRulesRaiseFaults : Obligations.OnlyTheFaultRulesRaiseFaults := by
  intro s t hs hne
  rcases step_effect hs with rfl | ⟨i, rest, hin, he⟩
  · simp at hne
  · cases he with
    | dropped ha => simp at hne
    | @accepted r _ ha he =>
      refine .inr ⟨r, rest, hin, ha, ?_⟩
      cases he with
      | illegalCommand hc => exact .inl ⟨decode_of_none hc, rfl, rfl⟩
      | @encodeFaults w v dst hd hl =>
        refine .inr ⟨dst, ?_, rfl, rfl⟩
        cases w with
        | w32 => exact .inl ⟨⟨_, hd⟩, hl⟩
        | w64 => exact .inr ⟨⟨_, hd⟩, hl⟩
      | encodeCompletes hd hv hl => simp at hne
      | decodeCompletes hd hv hn h0 => simp at hne
      | readStarts hd => simp at hne
    | reset => exact .inl ⟨rest, hin⟩
    | answer =>
      obtain ⟨-, hf, hi, -⟩ := serveAnswer_frame { s with inputs := rest }
      simp [hf, hi] at hne
    | hostRead => simp [hostRead] at hne
    | hostWrite => simp at hne
    | supply => simp at hne
    | agentTakes hp => simp at hne
    | agentFindsNone => simp at hne

/-- A byte that a completing ENCODE changes lies in its destination below the capacity (20_memory.md R41). -/
theorem sliceWrite_emitted_changes {w : Width} {v : Int} {dst : Slice} {s : State} {a : Nat} (hv : w.fits v = true)
    (hl : w.maxLen ≤ dst.len) (h : (s.sliceWrite dst 0 (emitted w v)).memRead a ≠ s.memRead a) :
    dst.base ≤ a ∧ a < dst.base + dst.len := by
  obtain ⟨-, -, -, -, hn⟩ := emitted_spec hv
  by_contra hout
  exact h (memRead_sliceWrite_ne fun k hk => by omega)

/-- Settles O35: of the effects of an input, host writes apart, only a completing ENCODE changes memory. -/
theorem onlyEncodeWritesMemory : Obligations.OnlyEncodeWritesMemory := by
  intro s t hs hwrite a hne
  rcases step_effect hs with rfl | ⟨i, rest, hin, he⟩
  · exact absurd rfl hne
  · cases he with
    | dropped ha => exact absurd rfl hne
    | @accepted r _ ha he =>
      cases he with
      | illegalCommand hc => exact absurd rfl hne
      | encodeFaults hd hl => exact absurd rfl hne
      | @encodeCompletes w v dst hd hv hl =>
        refine ⟨r, rest, dst, hin, ha, ?_, sliceWrite_emitted_changes hv hl hne⟩
        cases w with
        | w32 => exact .inl ⟨_, hd⟩
        | w64 => exact .inr ⟨_, hd⟩
      | decodeCompletes hd hv hn h0 => exact absurd rfl hne
      | readStarts hd => exact absurd rfl hne
    | reset => exact absurd rfl hne
    | answer => exact absurd (memRead_congr (serveAnswer_frame { s with inputs := rest }).1 a) hne
    | hostRead => exact absurd rfl hne
    | hostWrite => exact absurd hin (hwrite _ _ rest)
    | supply => exact absurd rfl hne
    | agentTakes hp => exact absurd rfl hne
    | agentFindsNone => exact absurd rfl hne

/-- A step whose next input is a host write. -/
theorem step_hostWrite {s : State} {a : Nat} {b : Byte} {rest : List Input} (h : s.inputs = .hostWrite a b :: rest) :
    step s = .next (State.memWrite { s with inputs := rest } a b) := by
  rw [step, h]; rfl

/-- A step whose next input is a supply. -/
theorem step_supply {s : State} {k : SourceId} {as : List Answer} {rest : List Input}
    (h : s.inputs = .supply k as :: rest) :
    step s = .next (State.setSource { s with inputs := rest } k ((s.source k).supplied as)) := by
  rw [step, h]; rfl

/-- Settles O45: the rules of a store's entry, for the byte written and for the source supplied. -/
theorem hostStoresChangeAsAsked : Obligations.HostStoresChangeAsAsked := by
  refine ⟨fun s a b rest hinv hin => ?_, fun s k as rest hinv hin => ?_⟩
  · exact ⟨_, step_hostWrite hin, rfl, memRead_memWrite_self a b (hinv.with_inputs rest).memWf,
      fun a' ha => memRead_memWrite_ne b ha⟩
  · have hself := source_setSource_self k ((s.source k).supplied as) (hinv.with_inputs rest).sourcesWf
    exact ⟨_, step_supply hin, rfl, (congrArg Source.pending hself :),
      (congrArg Source.pos hself :), fun j hj => source_setSource_ne _ hj⟩

/-- Settles O31: such a block accepts nothing, neither a command nor a reserved CMD word. -/
theorem noCommandIsAcceptedWhileBusyOrFaulted : Obligations.NoCommandIsAcceptedWhileBusyOrFaulted := by
  intro s h
  have ha : s.accepts = false := h.elim not_accepts_of_busy not_accepts_of_faulted
  refine ⟨fun i => exec_of_not_accepted i ha, fun r rest c hin hd => ?_⟩
  rw [step_issue hin, issue_of_illegal hd, illegalCommand_of_not_accepted (s := { s with inputs := rest }) c ha]

/-- Settles O37: the fields of the reset state. -/
theorem resetStateIsAsSpecified : Obligations.ResetStateIsAsSpecified :=
  ⟨rfl, rfl, rfl, rfl, rfl, rfl, rfl, rfl⟩

/-! ### Register reads of the host -/

section
variable {s : State} {r : HostReg} {d : HostDatum} {rest : List Input}

/-- A register read that is no fault of the host's program gives what the register holds. -/
theorem step_hostRead_unmarked (hin : s.inputs = .hostRead r :: rest) (hv : s.hostView r = d)
    (hf : s.hostReadFault r = none) : step s = .next { s with inputs := rest, hostData := some d } := by
  have hf' : State.hostReadFault { s with inputs := rest } r = none := hf
  rw [step_hostRead hin, hostRead_eq, hf', Option.or_none, ← hv]
  rfl

/-- A register read that is a fault of the host's program is marked, after the mark there was. -/
theorem step_hostRead_marked {f : HostFault} (hin : s.inputs = .hostRead r :: rest) (hv : s.hostView r = d)
    (hf : s.hostReadFault r = some f) :
    step s = .next { s with inputs := rest, hostData := some d, hostFault := s.hostFault.or (some f) } := by
  rw [step_hostRead hin, hostRead_eq, ← hv, ← hf]
  rfl

end

/-- Settles O38: each of these reads is marked, by the contents that the clause names. -/
theorem hostReadOfNoValueFaults : Obligations.HostReadOfNoValueFaults := by
  intro s r rest hin
  refine ⟨?_, ?_, ?_, ?_, ?_, ?_⟩
  · rintro rfl h
    exact step_hostRead_marked hin (congrArg HostDatum.status h) (if_pos h)
  · rintro rfl h
    exact step_hostRead_marked hin (congrArg HostDatum.value h) (if_pos h)
  · rintro rfl h
    exact step_hostRead_marked hin (congrArg HostDatum.len h) (if_pos h)
  · rintro rfl h
    exact step_hostRead_marked hin (congrArg HostDatum.resW h) (if_pos h)
  · rintro rfl h
    exact step_hostRead_marked hin rfl (if_pos h)
  · rintro rfl h
    exact step_hostRead_marked hin (congrArg HostDatum.value h) (by simp [State.hostReadFault, h])

/-- Settles O39: none of these reads is marked, by the contents that the clause names. -/
theorem hostReadGivesTheRegister : Obligations.HostReadGivesTheRegister := by
  intro s r rest hin
  refine ⟨?_, ?_, ?_, ?_, ?_, ?_, ?_, ?_, ?_⟩
  · rintro rfl
    exact step_hostRead_unmarked hin rfl rfl
  · rintro rfl
    exact step_hostRead_unmarked hin rfl rfl
  · rintro rfl
    exact step_hostRead_unmarked hin rfl rfl
  · rintro st rfl h
    exact step_hostRead_unmarked hin (congrArg HostDatum.status h) (if_neg (by simp [h]))
  · rintro v rfl h
    exact step_hostRead_unmarked hin (congrArg HostDatum.value h) (by simp [State.hostReadFault, h])
  · rintro n rfl h
    exact step_hostRead_unmarked hin (congrArg HostDatum.len h) (if_neg (by simp [h]))
  · rintro rfl h
    exact step_hostRead_unmarked hin (congrArg HostDatum.len h) (if_neg (by simp [h]))
  · rintro w rfl h
    exact step_hostRead_unmarked hin (congrArg HostDatum.resW h) (if_neg (by simp [h]))
  · rintro rfl hst hv hn hw
    exact step_hostRead_unmarked hin rfl (if_neg (by simp [hst, hv, hn, hw]))

end Sys2Proof.Machine
end

section
/-! Memory: what an ENCODE leaves in its destination, a DECODE issued again, and the answers taken from a byte source
(20_memory.md). -/

namespace Sys2Proof.Machine

/-! ### The bytes an ENCODE leaves in its destination -/

/-- Bits 5:0 of byte 0 are chunk 0 of the magnitude (30_encoding.md R61). -/
theorem wireMag_firstChunk (bs : List Byte) : (bs.getD 0 0).toNat % 2 ^ 6 = wireMag bs % 2 ^ 6 := by
  cases bs with
  | nil => rfl
  | cons b bs => simp [wireMag]

/-- Bits 6:0 of byte `k` are chunk `k` of the magnitude (30_encoding.md R62). -/
theorem wireMag_laterChunk {bs : List Byte} {k : Nat} (h1 : 1 ≤ k) (hk : k < bs.length) :
    (bs.getD k 0).toNat % 2 ^ 7 = wireMag bs / 2 ^ (6 + 7 * (k - 1)) % 2 ^ 7 := by
  cases bs with
  | nil => simp at hk
  | cons b bs =>
    obtain ⟨k, rfl⟩ := Nat.exists_eq_add_of_le' h1
    have htail : wireMag (b :: bs) / 2 ^ 6 = laterMag bs := by rw [wireMag]; omega
    rw [Nat.add_sub_cancel, pow_add, ← Nat.div_div_eq_div_mul, htail]
    exact laterMag_chunk (by simpa using hk)

/-- Settles O12: the destination holds the bytes emitted, and these carry the sign and the magnitude, terminated at the
canonical length. -/
theorem encodeOutputHasTheWireLayout : Obligations.EncodeOutputHasTheWireLayout := by
  intro w v dst s t n hv hinv ha hc he hn
  obtain ⟨hmag, hsign, ⟨-, hmore⟩, hcanon, hmax⟩ := emitted_spec hv
  cases (exec_encodeOf_next hv ha hc).symm.trans he
  cases hn
  have hread : ∀ k, k < (emitted w v).length →
      (s.sliceWrite dst 0 (emitted w v)).memRead (dst.base + k) = (emitted w v).getD k 0 :=
    fun k hk => by simpa using memRead_sliceWrite (sl := dst) (i := 0) hinv.memWf hk
  have hread0 := hread 0 hcanon.1
  rw [Nat.add_zero] at hread0
  simp only [memRead_complete]
  refine ⟨hcanon, hcanon.1, hmax, ?_, ?_, fun k h1 hk => ?_, fun k hk => ?_, fun a ha => ?_⟩
  · rw [hread0, wireMag_firstChunk, hmag]
  · rw [hread0, ← hsign, wireSign]
  · rw [hread k hk, wireMag_laterChunk h1 hk, hmag]
  · rw [hread k hk, hmore k hk]
  · exact memRead_sliceWrite_ne (fun k hk => by simpa using ha k hk)

/-! ### DECODE -/

/-- The bytes of a slice depend on the byte stores alone. -/
theorem sliceBytes_congr {s t : State} (h : t.mem = s.mem) (src : Slice) (n : Nat) :
    sliceBytes t src n = sliceBytes s src n :=
  List.map_congr_left fun _ _ => memRead_congr h _

/-- An accepted DECODE completes with a value and a length that depend on the byte stores alone (20_memory.md R49). -/
theorem runDecode_of_mem (w : Width) (src : Slice) (s : State) :
    ∃ v n, ∀ t : State, t.mem = s.mem → runDecode w src t = t.complete .ok (some v) (some n) w := by
  cases hd : decodeBytes w (sliceBytes s src w.maxLen) with
  | none => exact ⟨_, _, fun t ht => by rw [runDecode, sliceBytes_congr ht, hd]⟩
  | some r => exact ⟨_, _, fun t ht => by rw [runDecode, sliceBytes_congr ht, hd]⟩

/-- Settles O20: the first DECODE leaves memory and acceptance as they were, so that the second writes the same record over
itself; where the block does not accept it, neither has an effect. -/
theorem decodeIsIdempotent : Obligations.DecodeIsIdempotent := by
  intro w src s t h
  cases ha : s.accepts with
  | false => cases (exec_of_not_accepted _ ha).symm.trans h; exact h
  | true =>
    obtain ⟨v, n, hrun⟩ := runDecode_of_mem w src s
    rw [exec_decodeOf, State.whenAccepted, if_pos ha, hrun s rfl] at h
    cases h
    have ha' : (s.complete .ok (some v) (some n) w).accepts = true := ha
    have hrun' := hrun (s.complete .ok (some v) (some n) w) rfl
    rw [exec_decodeOf, State.whenAccepted, if_pos ha', hrun']
    rfl

/-! ### Byte sources -/

section
variable {s t : State} {k : SourceId} {a : Answer} {as : List Answer} {rest : List Input}

/-- A source depends on the byte sources alone. -/
theorem source_congr (h : t.sources = s.sources) (k : SourceId) : t.source k = s.source k := by
  simp only [State.source, h]

/-- What a source has given depends on the byte sources alone. -/
theorem SourceGave.congr {s' t' : State} (h : SourceGave s t k a as) (hs : s'.sources = s.sources)
    (ht : t'.sources = t.sources) : SourceGave s' t' k a as := by
  obtain ⟨hpend, hpos, hothers⟩ := h
  constructor <;> simpa only [source_congr hs, source_congr ht]

/-- A source that is changed to have given its answer has given that one (20_memory.md R46). -/
theorem sourceGave_answered (s : State) (k : SourceId) (a : Answer) (as : List Answer)
    (hw : Sources.wf s.sources = true) : SourceGave s (s.setSource k ((s.source k).answered a as)) k a as := by
  have hself := source_setSource_self k ((s.source k).answered a as) hw
  refine ⟨congrArg Source.pending hself, ?_, fun j hj => source_setSource_ne _ hj⟩
  rw [hself]
  cases a <;> rfl

/-- A running READ that meets the invariant has a request outstanding (42_stream_decoder.md R133). -/
theorem State.Inv.sdState_ne_done (h : s.Inv) (hp : s.phase = .readBusy) : s.sdState ≠ .done := by
  intro hd
  simpa [sdOk_done hp hd] using h.sd

/-- A step whose next input is another agent's take. -/
theorem step_agentTake (h : s.inputs = .agentTake k :: rest) : step s = agentTake k { s with inputs := rest } := by
  rw [step, h]; rfl

/-- Taking from the source of a running READ is refused (20_memory.md R53). -/
theorem agentTake_of_bound (hp : s.phase = .readBusy) (hk : s.sdSource = k) :
    agentTake k s = .refused (.sourceInUse k) := by
  rw [agentTake, if_pos ⟨hp, hk⟩]

/-- From a source that no READ is using the agent takes the next answer. -/
theorem agentTake_of_free (hfree : s.phase = .idle ∨ s.sdSource ≠ k) (hpend : (s.source k).pending = a :: as) :
    agentTake k s = .next (s.setSource k ((s.source k).answered a as)) := by
  have hnot : ¬(s.phase = .readBusy ∧ s.sdSource = k) := by
    rintro ⟨hp, hk⟩
    rcases hfree with h | h
    · simp [hp] at h
    · exact h hk
  rw [agentTake, if_neg hnot, hpend]

end

/-- Settles O25: the answer is taken from the bound source, and what the block makes of it touches no source. -/
theorem readStepTakesOneAnswer : Obligations.ReadStepTakesOneAnswer := by
  intro s rest a as hinv hp hin hpend
  have hserve := serveAnswer_of_pending (s := { s with inputs := rest }) hp (hinv.sdState_ne_done hp) hpend
  refine ⟨_, (step_answer hin).trans (congrArg _ hserve), ?_⟩
  obtain ⟨-, hsources, -⟩ := readStep_frame
    (State.setSource { s with inputs := rest } s.sdSource ((s.source s.sdSource).answered a as)) a
  exact (sourceGave_answered s s.sdSource a as hinv.sourcesWf).congr rfl hsources

/-- Settles O41: the source of a running READ is refused; a take from any other changes that source alone. -/
theorem sharedSourceIsRefused : Obligations.SharedSourceIsRefused := by
  intro s k rest hin
  refine ⟨fun hp hk => ?_, fun a as hfree hw hpend => ?_⟩
  · rw [step_agentTake hin]
    exact agentTake_of_bound (s := { s with inputs := rest }) hp hk
  · refine ⟨_, (step_agentTake hin).trans (agentTake_of_free (s := { s with inputs := rest }) hfree hpend), ?_, rfl, ?_⟩
    · exact (sameBlock_setSource { s with inputs := rest } k _).of_inputs
    · exact (sourceGave_answered s k a as hw).congr rfl rfl

end Sys2Proof.Machine
end

section
/-! Command decode and encode (30_encoding.md sections 4 and 6): each family's words said once, and which requests are
commands. -/

namespace Sys2Proof.Machine

/-! ### The words of a family -/

/-- The only word that decodes to a family and a width is their CMD word (30_encoding.md R72). -/
theorem decodeCmd_eq_some_iff (cmd : Byte) (f : Family) (w : Width) :
    decodeCmd cmd = some (f, w) ↔ cmd = cmdWord f w := by
  cases f <;> cases w <;> revert cmd <;> decide

/-- A word that is not reserved is the CMD word of a family and a width (30_encoding.md R72). -/
theorem exists_cmdWord_iff (cmd : Byte) :
    (∃ f w, cmd = cmdWord f w) ↔ cmd.extractLsb' 3 5 = 0#5 ∧ cmd.extractLsb' 0 2 ≠ 3#2 := by
  have hsome : (∃ f w, cmd = cmdWord f w) ↔ decodeCmd cmd ≠ none := by
    simp only [← decodeCmd_eq_some_iff, Option.ne_none_iff_exists', Prod.exists]
  rw [hsome, Ne, decodeCmd_eq_none_iff, not_or, not_not]

section
variable {r : Request} {w : Width}

/-- An ENCODE word, with the boundary of the value port (30_encoding.md R73, 40_encoder.md R90). -/
theorem decode_encodeWord (hc : r.cmd = cmdWord .encode w) :
    decode r = if w.fits r.value then .instr (encodeOf w r.value r.buf) else .valueOutOfRange r.value := by
  cases w <;> simp only [decode, hc, decodeCmd_cmdWord, encodeOf]

/-- An ENCODE word whose integer the port can carry (30_encoding.md R73). -/
theorem decode_encodeWord_of_fits (hc : r.cmd = cmdWord .encode w) (hv : w.fits r.value = true) :
    decode r = .instr (encodeOf w r.value r.buf) := by
  rw [decode_encodeWord hc, if_pos hv]

/-- A DECODE word (30_encoding.md R73). -/
theorem decode_decodeWord (hc : r.cmd = cmdWord .decode w) : decode r = .instr (decodeOf w r.buf) := by
  cases w <;> simp only [decode, hc, decodeCmd_cmdWord, decodeOf]

/-- A READ word (30_encoding.md R73). -/
theorem decode_readWord (hc : r.cmd = cmdWord .read w) : decode r = .instr (readOf w r.source) := by
  cases w <;> simp only [decode, hc, decodeCmd_cmdWord, readOf]

end

/-- A reserved word (30_encoding.md R74). -/
theorem decode_reserved {r : Request} (h : r.cmd.extractLsb' 3 5 ≠ 0#5 ∨ r.cmd.extractLsb' 0 2 = 3#2) :
    decode r = .illegalCommand r.cmd :=
  decode_of_none ((decodeCmd_eq_none_iff _).2 h)

/-! ### Requests that decode to a command -/

/-- A request decodes to a command in three ways, one for each family (30_encoding.md R73, R74). -/
theorem decode_instr_cases {r : Request} {i : Instr} (h : decode r = .instr i) :
    (∃ w, r.cmd = cmdWord .encode w ∧ w.fits r.value = true ∧ i = encodeOf w r.value r.buf) ∨
      (∃ w, r.cmd = cmdWord .decode w ∧ i = decodeOf w r.buf) ∨
      ∃ w, r.cmd = cmdWord .read w ∧ i = readOf w r.source := by
  cases hd : decodeCmd r.cmd with
  | none => rw [decode_of_none hd] at h; cases h
  | some fw =>
    obtain ⟨f, w⟩ := fw
    have hc := (decodeCmd_eq_some_iff _ _ _).1 hd
    cases f with
    | encode =>
      rw [decode_encodeWord hc] at h
      split_ifs at h with hv
      cases h
      exact .inl ⟨w, hc, hv, rfl⟩
    | decode => rw [decode_decodeWord hc] at h; cases h; exact .inr (.inl ⟨w, hc, rfl⟩)
    | read => rw [decode_readWord hc] at h; cases h; exact .inr (.inr ⟨w, hc, rfl⟩)

/-- The request of an ENCODE: the value port carries the integer, which the width can hold (40_encoder.md R90). -/
theorem encode_encodeOf {w : Width} {v : Int} (dst : Slice) (hv : w.fits v = true) :
    encode (encodeOf w v dst) = ⟨cmdWord .encode w, v, dst, 0⟩ := by
  cases w with
  | w32 => simp only [encodeOf, encode, toInt_ofInt32 hv]
  | w64 => simp only [encodeOf, encode, toInt_ofInt64 hv]

/-- An ENCODE is the command its request decodes to. -/
theorem decode_encode_encodeOf {w : Width} {v : Int} (dst : Slice) (hv : w.fits v = true) :
    decode (encode (encodeOf w v dst)) = .instr (encodeOf w v dst) := by
  rw [encode_encodeOf dst hv]
  exact decode_encodeWord_of_fits rfl hv

/-- Settles O3: for each of the three kinds of command. -/
theorem decodeOfEncodeIsTheCommand : Obligations.DecodeOfEncodeIsTheCommand := by
  intro i
  rcases instr_cases i with ⟨w, v, dst, hv, rfl⟩ | ⟨w, src, rfl⟩ | ⟨w, k, rfl⟩
  · exact decode_encode_encodeOf dst hv
  · exact decode_encode_decodeOf w src
  · exact decode_encode_readOf w k

/-- Settles O4: the command is its family's, of the ports of its form, and its request carries these again. -/
theorem decodedRequestCarriesTheCommand : Obligations.DecodedRequestCarriesTheCommand := by
  intro r i h
  rcases decode_instr_cases h with ⟨w, hc, hv, rfl⟩ | ⟨w, hc, rfl⟩ | ⟨w, hc, rfl⟩
  · rw [encode_encodeOf r.buf hv, hc]
    cases w <;> exact ⟨rfl, rfl, rfl⟩
  · rw [hc]
    cases w <;> exact ⟨rfl, rfl⟩
  · rw [hc]
    cases w <;> exact ⟨rfl, rfl⟩

/-! ### Well-formed requests -/

/-- Only an ENCODE word asks for an integer of its width (40_encoder.md R90). -/
theorem valueFits_of_cmdWord {r : Request} {f : Family} {w : Width} (hc : r.cmd = cmdWord f w) :
    r.valueFits = true ↔ (f = .encode → w.fits r.value = true) := by
  cases f <;> cases w <;> simp [Request.valueFits, hc, familyBits]

/-- The three conditions of well-formedness, of the fields of the CMD word. -/
theorem wellFormed_iff (r : Request) :
    r.wellFormed = true ↔ ∃ f w, r.cmd = cmdWord f w ∧ (f = .encode → w.fits r.value = true) := by
  have hfields : r.wellFormed = true ↔ (∃ f w, r.cmd = cmdWord f w) ∧ r.valueFits = true := by
    simp [exists_cmdWord_iff, Request.wellFormed, Request.reservedClear, Request.opDefined]
  rw [hfields]
  constructor
  · rintro ⟨⟨f, w, hc⟩, hv⟩
    exact ⟨f, w, hc, (valueFits_of_cmdWord hc).1 hv⟩
  · rintro ⟨f, w, hc, hv⟩
    exact ⟨⟨f, w, hc⟩, (valueFits_of_cmdWord hc).2 hv⟩

/-- Settles O5: both say that the word is a family's and that an ENCODE's integer fits. -/
theorem wellFormedRequestsAreTheCommands : Obligations.WellFormedRequestsAreTheCommands := by
  intro r
  rw [wellFormed_iff]
  constructor
  · rintro ⟨f, w, hc, hv⟩
    cases f with
    | encode => exact ⟨_, decode_encodeWord_of_fits hc (hv rfl)⟩
    | decode => exact ⟨_, decode_decodeWord hc⟩
    | read => exact ⟨_, decode_readWord hc⟩
  · rintro ⟨i, h⟩
    rcases decode_instr_cases h with ⟨w, hc, hv, -⟩ | ⟨w, hc, -⟩ | ⟨w, hc, -⟩
    · exact ⟨.encode, w, hc, fun _ => hv⟩
    · exact ⟨.decode, w, hc, nofun⟩
    · exact ⟨.read, w, hc, nofun⟩

/-! ### CMD codes, table words and command text -/

/-- Settles O1: the reserved words, then the six codes, each the CMD word of its family and width. -/
theorem commandWordsDecodeAsSpecified : Obligations.CommandWordsDecodeAsSpecified := by
  refine fun r => ⟨decode_reserved, fun hc h1 h2 => ?_, fun hc => ?_, fun hc => ?_, fun hc h1 h2 => ?_, fun hc => ?_,
    fun hc => ?_⟩
  · exact decode_encodeWord_of_fits (w := .w32) hc ((fits32_iff _).2 ⟨h1, h2⟩)
  · exact decode_decodeWord (w := .w32) hc
  · exact decode_readWord (w := .w32) hc
  · exact decode_encodeWord_of_fits (w := .w64) hc ((fits64_iff _).2 ⟨h1, h2⟩)
  · exact decode_decodeWord (w := .w64) hc
  · exact decode_readWord (w := .w64) hc

/-- Settles O2: ten closed facts about the decoder. -/
theorem tableWordsDecode : Obligations.TableWordsDecode := by
  unfold Obligations.TableWordsDecode
  decide

/-- Settles O6: a line assembles to the CMD word of its command with the slice, or the source, that it names. -/
theorem commandTextAssembles : Obligations.CommandTextAssembles := by
  refine ⟨fun v b hv => ?_, fun v b hv => ?_, fun v b k hv _ => ?_, fun v b k hv _ => ?_, fun b => ?_, fun b => ?_,
    fun b k _ => ?_, fun b k _ => ?_, fun k => ?_, fun k => ?_, fun c hc => ?_⟩
  · exact decode_encodeWord_of_fits (w := .w32) rfl hv
  · exact decode_encodeWord_of_fits (w := .w64) rfl hv
  · exact decode_encodeWord_of_fits (w := .w32) rfl hv
  · exact decode_encodeWord_of_fits (w := .w64) rfl hv
  · exact decode_decodeWord (w := .w32) rfl
  · exact decode_decodeWord (w := .w64) rfl
  · exact decode_decodeWord (w := .w32) rfl
  · exact decode_decodeWord (w := .w64) rfl
  · exact decode_readWord (w := .w32) rfl
  · exact decode_readWord (w := .w64) rfl
  · exact decode_reserved hc

end Sys2Proof.Machine
end

section
/-! The Encoder (40_encoder.md): the integers it is given, the length it completes with, and the round trip of its bytes
through both decoders. -/

namespace Sys2Proof.Machine

/-! ### Integers outside the value port -/

/-- An ENCODE word whose integer the port cannot carry (40_encoder.md R90). -/
theorem decode_encodeWord_of_not_fits {r : Request} {w : Width} (hc : r.cmd = cmdWord .encode w)
    (hv : ¬ w.fits r.value = true) : decode r = .valueOutOfRange r.value := by
  rw [decode_encodeWord hc, if_neg hv]

/-- A request whose integer is out of range is refused, in every state (40_encoder.md R90). -/
theorem issue_of_valueOutOfRange {r : Request} {v : Int} (h : decode r = .valueOutOfRange v) (s : State) :
    issue r s = .refused (.valueOutOfRange v) := by
  rw [issue, h]

/-- Settles O40: the two ENCODE words, with an integer that their width does not hold. -/
theorem outOfRangeValueIsRefused : Obligations.OutOfRangeValueIsRefused := by
  refine fun s r rest hin => ⟨fun hc hv => ?_, fun hc hv => ?_⟩
  · have hfit : ¬ Width.w32.fits r.value = true := by rw [fits32_iff]; omega
    rw [step_issue hin, issue_of_valueOutOfRange (decode_encodeWord_of_not_fits hc hfit)]
  · have hfit : ¬ Width.w64.fits r.value = true := by rw [fits64_iff]; omega
    rw [step_issue hin, issue_of_valueOutOfRange (decode_encodeWord_of_not_fits hc hfit)]

/-! ### Completion -/

/-- Settles O11: the emitted bytes have the canonical length, and writing them changes memory alone. -/
theorem encodeCompletesWithCanonicalLength : Obligations.EncodeCompletesWithCanonicalLength := by
  intro w v dst s hv ha hc
  obtain ⟨-, -, -, hcanon, hmax⟩ := emitted_spec hv
  refine ⟨_, _, exec_encodeOf_next hv ha hc, hcanon, hmax, ?_⟩
  rw [State.sliceWrite_eq]
  rfl

/-! ### The round trip -/

/-- The bytes written at the start of a buffer are its first bytes. -/
theorem firstBytes_sliceWrite {s : State} (sl : Slice) (bs : List Byte) (h : Memory.wf s.mem = true) :
    firstBytes (s.sliceWrite sl 0 bs) sl bs.length = bs := by
  refine List.ext_getElem (by simp [firstBytes]) fun k _ hk => ?_
  simpa [firstBytes, hk] using memRead_sliceWrite (sl := sl) (i := 0) h hk

/-- The destination of an accepted ENCODE begins with the emitted bytes, and LEN counts them (40_encoder.md R92). -/
theorem firstBytes_of_exec_encodeOf {w : Width} {v : Int} {dst : Slice} {s t : State} {n : Nat}
    (hv : w.fits v = true) (hm : Memory.wf s.mem = true) (ha : s.accepts = true) (hc : w.maxLen ≤ dst.len)
    (he : exec (encodeOf w v dst) s = .next t) (hn : t.len = .holds n) :
    n = (emitted w v).length ∧ firstBytes t dst n = emitted w v := by
  cases (exec_encodeOf_next hv ha hc).symm.trans he
  cases hn
  exact ⟨rfl, firstBytes_sliceWrite dst _ hm⟩

/-- An accepted READ that is served a terminated sequence within the budget succeeds with its value, and consumes it
(42_stream_decoder.md R132, R139). -/
theorem run_readScript_terminated {u : State} {w : Width} {k : SourceId} {bs : List Byte} {as : List Answer}
    (hw : Sources.wf u.sources = true) (ha : u.accepts = true) (ht : Terminated bs) (hl : bs.length ≤ w.maxLen)
    (hp : (u.source k).pending = bs.map .byte ++ as) :
    ∃ x, Host.Core.run core (bs.length + 1) (readScript u w k bs.length) = .next x ∧
      ReadDone x w k .ok (.holds (wrapVal w (signedValue (wireSign bs) (wireMag bs)))) as
        ((u.source k).pos + bs.length) := by
  obtain ⟨r, hstep, hr⟩ := readScript_starts w k bs.length hw ha
  rw [hp] at hr
  obtain ⟨x, hrun, hdone, -⟩ := run_terminated hr ht (by simpa using hl)
  exact ⟨x, (run_succ_of_step _ hstep).trans hrun, hdone⟩

/-- Settles O29: the bytes written are terminated within the budget, and their sign and magnitude stand for the value, which
either decoder gives back. -/
theorem roundTripThroughBothDecoders : Obligations.RoundTripThroughBothDecoders := by
  intro w v dst s t n hv hinv ha hc he hn
  obtain ⟨hmag, hsign, hterm, -, hmax⟩ := emitted_spec hv
  obtain ⟨rfl, hbytes⟩ := firstBytes_of_exec_encodeOf hv hinv.memWf ha hc he hn
  have hvalue : signedValue (wireSign (emitted w v)) (wireMag (emitted w v)) = v := by
    rw [hsign, hmag, signedValue_biasedMag]
  rw [hbytes]
  refine ⟨fun src u hu hs => ?_, fun k u as huinv hu hp => ?_⟩
  · rw [exec_decodeOf_consumed hu (.inl ⟨hterm, hmax⟩) hs, hvalue]
    rfl
  · obtain ⟨x, hrun, hdone⟩ := run_readScript_terminated huinv.sourcesWf hu hterm hmax hp
    rw [hvalue] at hdone
    exact ⟨x, hrun, hdone.phase, hdone.status, hdone.value, congrArg Source.pending hdone.source,
      congrArg Source.pos hdone.source⟩

end Sys2Proof.Machine
end

section
/-! The Buffer Decoder (41_buffer_decoder.md): terminated, capped and insufficient slices. -/

namespace Sys2Proof.Machine

/-- Settles O15: a terminated sequence within the budget is consumed whole. -/
theorem decodeOfTerminatedSequence : Obligations.DecodeOfTerminatedSequence :=
  fun _ _ _ _ ha ht hl hs => exec_decodeOf_consumed ha (.inl ⟨ht, hl⟩) hs

/-- Settles O16: as many bytes with the more flag as the budget allows are consumed whole. -/
theorem decodeCapsAtTheBudget : Obligations.DecodeCapsAtTheBudget := by
  intro w src s bs ha hu hl hs
  rw [exec_decodeOf_consumed ha (.inr ⟨hu, hl⟩) hs, hl]
  rfl

/-- An accepted DECODE of a slice that ends before the budget with the more flag in every byte (41_buffer_decoder.md
R115). -/
theorem exec_decodeOf_insufficient {w : Width} {src : Slice} {s : State} (ha : s.accepts = true)
    (hl : src.len < w.maxLen) (hmore : ∀ k, k < src.len → (s.memRead (src.base + k)).getLsbD 7 = true) :
    exec (decodeOf w src) s = .next (s.complete .ok (some (wrapVal w 0)) (some 0) w) := by
  have hlen : (sliceBytes s src w.maxLen).length = src.len := by rw [sliceBytes_length]; omega
  have hu : Unterminated (sliceBytes s src w.maxLen) := by
    intro k hk
    rw [sliceBytes_getD (by omega)]
    exact hmore k (by omega)
  rw [exec_decodeOf, State.whenAccepted, if_pos ha, runDecode, decodeBytes_insufficient hu (by omega)]

/-- Settles O17: an insufficient slice decodes to nothing; any other begins with a consumed sequence, and LEN is that
sequence's length, at least 1. -/
theorem decodeOfInsufficientData : Obligations.DecodeOfInsufficientData := by
  intro w src s ha
  refine ⟨exec_decodeOf_insufficient ha, fun t he hlen => ?_⟩
  rcases exec_decodeOf_cases (w := w) src ha with ⟨bs, hc, -, hx⟩ | ⟨hl, hmore, -⟩
  · cases hx.symm.trans he
    have hzero : bs.length = 0 := ResultReg.holds.inj hlen
    exact absurd hc.length_pos (by omega)
  · exact ⟨hl, hmore⟩

end Sys2Proof.Machine
end

section
/-! The Stream Decoder (42_stream_decoder.md): a READ starts, takes a step on each kind of answer, and is held without
one. -/

namespace Sys2Proof.Machine

/-! ### The start -/

/-- Settles O21: an accepted READ starts, any other is dropped. -/
theorem readStarts : Obligations.ReadStarts := by
  refine fun w k s => ⟨fun ha => ?_, exec_of_not_accepted _⟩
  rw [exec_readOf, State.whenAccepted, if_pos ha]
  rfl

/-! ### A step on an answer -/

section
variable {s : State} {b : Byte} {a : Answer} {as : List Answer} {rest : List Input}

/-- The first byte of a READ: its sign flag, its six bits, and the count (42_stream_decoder.md R134). -/
theorem absorb_firstByte (b : Byte) (hd : s.sdState = .awaitFirstByte) :
    s.absorb b = { s with sdSign := b.getLsbD 6, sdMag := b.toNat % 2 ^ 6, sdN := s.sdN + 1 } := by
  rw [State.absorb, hd, ← firstChunk_eq]
  rfl

/-- A continuation byte: its seven bits, and the count (42_stream_decoder.md R135). -/
theorem absorb_continuationByte (b : Byte) (hd : s.sdState = .awaitContinuation) :
    s.absorb b = { s with
      sdMag := s.sdMag ||| ((b.toNat % 2 ^ 7) <<< (6 + 7 * (s.sdN - 1))), sdN := s.sdN + 1 } := by
  rw [State.absorb, hd, ← laterChunk_eq]
  rfl

/-- A byte without the more flag ends the READ with its value (42_stream_decoder.md R139). -/
theorem concludeByte_last (hb : b.getLsbD 7 = false) :
    s.concludeByte b = s.finishRead .ok (some (wrapVal s.sdW (signedValue s.sdSign s.sdMag))) :=
  if_pos hb

/-- A byte with the more flag that fills the budget ends the READ without a value (42_stream_decoder.md R136). -/
theorem concludeByte_overflow (hb : b.getLsbD 7 = true) (hn : s.sdN = s.sdW.maxLen) :
    s.concludeByte b = s.finishRead .overflow none := by
  have hmore : moreFlag b ≠ false := by simp [moreFlag, hb]
  rw [State.concludeByte, if_neg hmore, if_pos hn]

/-- A byte with the more flag within the budget awaits the next one (42_stream_decoder.md R134, R135). -/
theorem concludeByte_more (hb : b.getLsbD 7 = true) (hn : s.sdN ≠ s.sdW.maxLen) :
    s.concludeByte b = { s with sdState := .awaitContinuation } := by
  have hmore : moreFlag b ≠ false := by simp [moreFlag, hb]
  rw [State.concludeByte, if_neg hmore, if_neg hn]

/-- A running READ has not filled its budget, since the byte that fills it ends the READ (42_stream_decoder.md R136). -/
theorem State.Inv.sdN_lt_maxLen (h : s.Inv) (hp : s.phase = .readBusy) : s.sdN < s.sdW.maxLen := by
  cases hd : s.sdState with
  | awaitFirstByte =>
    obtain ⟨hn, -, -⟩ := (sdOk_awaitFirstByte hp hd).1 h.sd
    rw [hn]
    cases s.sdW <;> decide
  | awaitContinuation =>
    obtain ⟨-, hlt, -⟩ := (sdOk_awaitContinuation hp hd).1 h.sd
    exact hlt
  | done => exact absurd hd (h.sdState_ne_done hp)

/-- The step of a running READ whose source has an answer to give: the answer is taken, then the block acts on it
(42_stream_decoder.md R133). -/
theorem step_answer_pending (h : s.Inv) (hp : s.phase = .readBusy) (hin : s.inputs = .answer :: rest)
    (hpend : (s.source s.sdSource).pending = a :: as) :
    step s = .next ((State.setSource { s with inputs := rest } s.sdSource
      ((s.source s.sdSource).answered a as)).readStep a) :=
  (step_answer hin).trans
    (congrArg _ (serveAnswer_of_pending (s := { s with inputs := rest }) hp (h.sdState_ne_done hp) hpend))

/-- FINISH completes the READ, whatever the step has made of the inputs, the sources and the decoder's sign, magnitude and
count (42_stream_decoder.md R131). -/
theorem readCompleted_finishRead (s : State) (st : Status) (v : Option Val) {ins : List Input}
    {srcs : List (Nat × Source)} {sg : Bool} {m n : Nat} :
    ReadCompleted s
      (State.finishRead { s with inputs := ins, sources := srcs, sdSign := sg, sdMag := m, sdN := n } st v)
      st (ResultReg.ofOption v) := by
  constructor <;> rfl

end

/-- Settles O22: the first byte is absorbed; with the more flag the budget has room for another, without it the READ
completes. -/
theorem readStepOnFirstByte : Obligations.ReadStepOnFirstByte := by
  intro s rest b as hinv hp hd hin hpend
  obtain ⟨hn, -, -⟩ := (sdOk_awaitFirstByte hp hd).1 hinv.sd
  have hroom : 0 + 1 ≠ s.sdW.maxLen := by cases s.sdW <;> decide
  rw [step_answer_pending hinv hp hin hpend, State.readStep, absorb_firstByte b (by exact hd)]
  refine ⟨fun hb => ?_, fun hb => ⟨_, rfl, ?_⟩⟩
  · rw [concludeByte_more hb (by simpa [hn] using hroom)]
    simp [hn, Source.answered, Answer.advance]
  · rw [concludeByte_last hb]
    exact ⟨rfl, readCompleted_finishRead s _ _⟩

/-- Settles O23: the byte is absorbed; then the more flag and the budget decide which of the three conclusions follows. -/
theorem readStepOnContinuationByte : Obligations.ReadStepOnContinuationByte := by
  intro s rest b as hinv hp hd hin hpend
  rw [step_answer_pending hinv hp hin hpend, State.readStep, absorb_continuationByte b (by exact hd)]
  refine ⟨fun hb hl => ?_, fun hb hl => ⟨_, rfl, ?_⟩, fun hb => ⟨_, rfl, ?_⟩⟩
  · rw [concludeByte_more hb (by exact hl.ne)]
    simp [hd, Source.answered, Answer.advance]
  · rw [concludeByte_overflow hb (by exact hl)]
    exact ⟨rfl, readCompleted_finishRead s _ _⟩
  · rw [concludeByte_last hb]
    exact ⟨rfl, readCompleted_finishRead s _ _⟩

/-- Settles O24: End completes the READ, whose budget was not filled; the source has given that answer. -/
theorem readStepOnEndTruncates : Obligations.ReadStepOnEndTruncates := by
  intro s rest as hinv hp hin hpend
  obtain ⟨t, hstep, hgave⟩ := readStepTakesOneAnswer s rest .endOfInput as hinv hp hin hpend
  refine ⟨Nat.le_sub_one_of_lt (hinv.sdN_lt_maxLen hp), t, hstep, ?_⟩
  cases (step_answer_pending hinv hp hin hpend).symm.trans hstep
  exact ⟨rfl, readCompleted_finishRead s _ _, hgave⟩

/-! ### No answer -/

/-- While a READ is running, only reset and an answer that exists touch the block (42_stream_decoder.md R137,
60_exceptions.md R175). -/
theorem InputEffect.sameBlock_of_busy {s t : State} {i : Input} (he : InputEffect s i t) (hp : s.phase = .readBusy)
    (hreset : i ≠ .reset) (hnone : i = .answer → (s.source s.sdSource).pending = []) : SameBlock s t := by
  cases he with
  | dropped ha => exact sameBlock_refl s
  | accepted ha he => simp [State.accepts, hp] at ha
  | reset => exact absurd rfl hreset
  | answer => rw [serveAnswer_of_nothing (hnone rfl)]; exact sameBlock_refl s
  | hostRead => exact sameBlock_hostRead s _
  | hostWrite => exact sameBlock_memWrite s _ _
  | supply => exact sameBlock_setSource s _ _
  | agentTakes hpend => exact sameBlock_setSource s _ _
  | agentFindsNone => exact sameBlock_refl s

/-- A step performs the next input in the state without it. -/
theorem step_eq_perform {s : State} {i : Input} {rest : List Input} (h : s.inputs = i :: rest) :
    step s = perform i { s with inputs := rest } := by
  rw [step, h]

/-- Settles O26: an input that is neither reset nor an answer that exists keeps the block, an answer that does not exist and
a command that is not accepted only pass, and without inputs nothing happens. -/
theorem readIsHeldWithoutAnswer : Obligations.ReadIsHeldWithoutAnswer := by
  refine ⟨fun s t i rest hp hin hreset hnone hstep => ?_, fun s rest hp hin hnone => ?_,
    fun s i r rest hp hin hdec => ?_, fun s hin => ?_⟩
  · rw [step_eq_perform hin] at hstep
    exact ((perform_effect hstep).sameBlock_of_busy hp hreset hnone).of_inputs
  · rw [step_answer hin, serveAnswer_of_nothing (s := { s with inputs := rest }) hnone]
  · have ha : State.accepts { s with inputs := rest } = false := not_accepts_of_busy (by simp [hp])
    rw [step_issue hin, issue_of_instr hdec, exec_of_not_accepted i ha]
  · rw [step, hin]

end Sys2Proof.Machine
end

section
/-! Faults and statuses (60_exceptions.md): the two fault rules, what a DECODE never raises, and the codes. -/

namespace Sys2Proof.Machine

/-! ### DECODE raises nothing -/

/-- Settles O18: a consumed sequence gives its value and a length within the budget, an insufficient slice 0 and LEN 0;
either way the command completes with STATUS OK. -/
theorem decodeAlwaysCompletesOk : Obligations.DecodeAlwaysCompletesOk := by
  intro w src s ha
  rcases exec_decodeOf_cases (w := w) src ha with ⟨bs, hc, -, he⟩ | ⟨-, -, he⟩
  · exact ⟨_, bs.length, hc.length_le, wrapVal_width _ _, he⟩
  · exact ⟨wrapVal w 0, 0, Nat.zero_le _, wrapVal_width _ _, he⟩

/-! ### DstTooSmall -/

/-- A 32-bit ENCODE is the ENCODE of the integer its port carries (40_encoder.md R95). -/
theorem encodeOf_toInt32 (v : BitVec 32) (dst : Slice) : encodeOf .w32 v.toInt dst = .encode32 v dst := by
  rw [encodeOf, BitVec.ofInt_toInt]

/-- A 64-bit ENCODE is the ENCODE of the integer its port carries (40_encoder.md R96). -/
theorem encodeOf_toInt64 (v : BitVec 64) (dst : Slice) : encodeOf .w64 v.toInt dst = .encode64 v dst := by
  rw [encodeOf, BitVec.ofInt_toInt]

/-- An accepted ENCODE with less capacity than its budget (60_exceptions.md R163). -/
theorem exec_encodeOf_small {w : Width} {v : Int} {dst : Slice} {s : State} (hv : w.fits v = true)
    (ha : s.accepts = true) (hl : dst.len < w.maxLen) :
    exec (encodeOf w v dst) s = .next (s.raiseFault .dstTooSmall (.cap dst.len)) := by
  rw [exec_encodeOf dst s hv, State.whenAccepted, if_pos ha, if_pos hl]

/-- Settles O13: the two variants are the ENCODE of an integer of their width, with their own budget. -/
theorem encodeIntoSmallDestinationFaults : Obligations.EncodeIntoSmallDestinationFaults := by
  refine ⟨fun v dst s ha hl => ?_, fun v dst s ha hl => ?_⟩
  · rw [← encodeOf_toInt32]
    exact exec_encodeOf_small (Laws.EncodesWellFormed.fits_toInt32 v) ha hl
  · rw [← encodeOf_toInt64]
    exact exec_encodeOf_small (Laws.EncodesWellFormed.fits_toInt64 v) ha hl

/-! ### IllegalCommand -/

/-- A reserved CMD word that is accepted raises its fault (60_exceptions.md R162). -/
theorem illegalCommand_of_accepted (c : Byte) {s : State} (h : s.accepts = true) :
    illegalCommand c s = s.raiseFault .illegalCommand (.cmd c) :=
  if_pos h

/-- Settles O32: the word decodes to no command, and the block accepts it and raises its fault. -/
theorem reservedCommandFaults : Obligations.ReservedCommandFaults := by
  intro s r rest hin hp hf hres
  have ha : State.accepts { s with inputs := rest } = true := (accepts_iff _).2 ⟨hp, hf⟩
  rw [step_issue hin, issue_of_illegal (decode_reserved hres), illegalCommand_of_accepted _ ha]
  rfl

/-! ### Codes -/

/-- STATUS code 3 is no status (60_exceptions.md R164). -/
theorem Status.code_ne_three (st : Status) : st.code ≠ 3 := by cases st <;> decide

/-- Settles O42: each code is the one its register's definition gives. -/
theorem statusAndFaultCodes : Obligations.StatusAndFaultCodes :=
  ⟨rfl, rfl, rfl, Status.code_ne_three, rfl, rfl, rfl⟩

end Sys2Proof.Machine
end

section
/-! Reset (70_reset_and_hazards.md section 1): what it leaves, and that no other input clears a fault. -/

namespace Sys2Proof.Machine

/-- A step whose next input is reset. -/
theorem step_reset {s : State} {rest : List Input} (h : s.inputs = .reset :: rest) :
    step s = .next (State.resetBlock { s with inputs := rest }) := by
  rw [step_eq_perform h, perform]

/-- A step that changes FAULT of a faulted block is a reset: the fault rules act on an accepted request only. -/
theorem reset_of_fault_changed {s t : State} (hs : step s = .next t) (hf : s.fault ≠ .none)
    (hne : t.fault ≠ s.fault) : ∃ rest, s.inputs = .reset :: rest := by
  rcases onlyTheFaultRulesRaiseFaults s t hs (.inl hne) with hreset | ⟨r, rest, -, ha, -⟩
  · exact hreset
  · exact absurd ((accepts_iff s).1 ha).2 hf

/-- Settles O36: the block's registers are those of the reset state, the host's stores those before the step; and a fault
that is cleared has changed. -/
theorem resetClearsTheBlockOnly : Obligations.ResetClearsTheBlockOnly := by
  refine ⟨fun s rest hin => ?_, fun s t hs hf hnone => ?_⟩
  · exact ⟨_, step_reset hin, rfl, rfl, rfl, rfl, rfl, rfl, rfl, rfl, rfl, rfl⟩
  · exact reset_of_fault_changed hs hf fun heq => hf (heq.symm.trans hnone)

end Sys2Proof.Machine
end

section
/-! The wire format's numbers (30_encoding.md section 2, 41_buffer_decoder.md R113): the bias of a negative value, and the
value that a sign and a magnitude stand for, at any width. -/

namespace Sys2Proof.Machine

/-- The bias of a negative value is its complement read unsigned, below half of the range (30_encoding.md R69). -/
theorem bias_of_negative {n : Nat} {v : BitVec n} (h : v.toInt < 0) :
    -v.toInt - 1 = ((~~~v).toNat : Int) ∧ 0 ≤ -v.toInt - 1 ∧ -v.toInt - 1 ≤ 2 ^ (n - 1) - 1 := by
  have hmsb : v.msb = true := by simpa [BitVec.msb_eq_toInt] using h
  have hmag : (~~~v).toNat = biasedMag v.toInt := by rw [← magnitudeOf_eq, magnitudeOf, if_pos hmsb]
  rw [biasedMag, if_neg (not_le.2 h)] at hmag
  have hlow := BitVec.le_toInt v
  omega

/-- Settles O8: the bias, the magnitude and the sign at each width. -/
theorem biasIsTheComplement : Obligations.BiasIsTheComplement :=
  ⟨fun _ => bias_of_negative, fun _ => bias_of_negative, fun v => ⟨magnitudeOf_eq v, signOf_eq v⟩,
    fun v => ⟨magnitudeOf_eq v, signOf_eq v⟩⟩

/-- Modulo the width a value is its magnitude, complemented where the sign is set (41_buffer_decoder.md R113). -/
theorem ofInt_signedValue {n : Nat} (s : Bool) (m : Nat) :
    BitVec.ofInt n (signedValue s m) = if s then ~~~(BitVec.ofNat n m) else BitVec.ofNat n m := by
  cases s with
  | false => exact BitVec.ofInt_natCast n m
  | true =>
    have hneg : signedValue true m = Int.negSucc m := (Int.negSucc_eq m).symm
    rw [hneg]
    exact BitVec.ofInt_negSucc_eq_not_ofNat

/-- A magnitude below half of the range stands for a value of the width (30_encoding.md R64). -/
theorem fits_signedValue {w : Width} (s : Bool) {m : Nat} (h : m < 2 ^ (w.bits - 1)) :
    w.fits (signedValue s m) = true := by
  have h' : (m : Int) < 2 ^ (w.bits - 1) := by exact_mod_cast h
  have hrange : -((m : Int) + 1) ≤ signedValue s m ∧ signedValue s m ≤ m := by
    unfold signedValue
    split <;> omega
  simp only [Width.fits, Bool.and_eq_true, decide_eq_true_eq]
  omega

/-- 32-bit reconstruction is exact in range (41_buffer_decoder.md R113). -/
theorem toInt_ofInt32_signedValue (s : Bool) {m : Nat} (h : m < 2 ^ 31) :
    (BitVec.ofInt 32 (signedValue s m)).toInt = signedValue s m :=
  toInt_ofInt32 (fits_signedValue (w := .w32) s h)

/-- 64-bit reconstruction is exact in range (41_buffer_decoder.md R113). -/
theorem toInt_ofInt64_signedValue (s : Bool) {m : Nat} (h : m < 2 ^ 63) :
    (BitVec.ofInt 64 (signedValue s m)).toInt = signedValue s m :=
  toInt_ofInt64 (fits_signedValue (w := .w64) s h)

/-- Settles O9: in range the value fits the width, and with the sign set it is the complement of the magnitude. -/
theorem reconstructionIsExactInRange : Obligations.ReconstructionIsExactInRange := by
  refine ⟨fun s m hm => ?_, fun s m hm => ?_, fun m => ?_, fun m => ?_⟩
  · exact ⟨_, rfl, toInt_ofInt32_signedValue s (by omega)⟩
  · exact ⟨_, rfl, toInt_ofInt64_signedValue s (by omega)⟩
  · exact congrArg Val.v32 (ofInt_signedValue true m)
  · exact congrArg Val.v64 (ofInt_signedValue true m)

/-- A magnitude register of at least the width keeps what reconstruction uses of the magnitude (00_scope.md R10). -/
theorem ofInt_signedValue_mod {n g : Nat} (s : Bool) (m : Nat) (h : n ≤ g) :
    BitVec.ofInt n (signedValue s (m % 2 ^ g)) = BitVec.ofInt n (signedValue s m) := by
  have hmod : BitVec.ofNat n (m % 2 ^ g) = BitVec.ofNat n m :=
    BitVec.eq_of_toNat_eq (by simp [Nat.mod_mod_of_dvd, Nat.pow_dvd_pow 2 h])
  rw [ofInt_signedValue, ofInt_signedValue, hmod]

/-- Settles O10: for the value of either width. -/
theorem magnitudeRegisterWidthHasNoEffect : Obligations.MagnitudeRegisterWidthHasNoEffect := by
  intro w s m g h
  cases w with
  | w32 => exact congrArg Val.v32 (ofInt_signedValue_mod s m h)
  | w64 => exact congrArg Val.v64 (ofInt_signedValue_mod s m h)

end Sys2Proof.Machine
end

section
/-! The two variants of ENCODE (40_encoder.md R97). -/

namespace Sys2Proof.Machine

/-- An integer of V32 is encoded alike at both widths: its magnitude is within the smaller budget (40_encoder.md R97). -/
theorem emitted_w64_eq_w32 {v : Int} (h : Width.w32.fits v = true) : emitted .w64 v = emitted .w32 v := by
  have hmag : biasedMag v < 2 ^ (6 + 7 * 4) := biasedMag_lt h
  have hlater : laterBytes 9 (biasedMag v >>> 6) = laterBytes 4 (biasedMag v >>> 6) := by
    apply laterBytes_budget <;> rw [Nat.shiftRight_eq_div_pow] <;> omega
  exact congrArg (firstByte _ _ _ :: ·) hlater

/-- Settles O14: both variants write the bytes of the same integer. -/
theorem encodeVariantsAgree : Obligations.EncodeVariantsAgree := by
  intro v dst s ha hc
  have hv : (v.signExtend 64).toInt = v.toInt := BitVec.toInt_signExtend_of_le (by norm_num)
  have hfits32 := Laws.EncodesWellFormed.fits_toInt32 v
  have hfits64 : Width.w64.fits v.toInt = true := hv ▸ Laws.EncodesWellFormed.fits_toInt64 (v.signExtend 64)
  have hc32 : Width.w32.maxLen ≤ dst.len := le_trans (by decide) hc
  rw [← encodeOf_toInt32 v, ← encodeOf_toInt64 (v.signExtend 64), hv]
  have h64 := exec_encodeOf_next hfits64 ha hc
  rw [emitted_w64_eq_w32 hfits32] at h64
  exact ⟨_, _, exec_encodeOf_next hfits32 ha hc32, h64, rfl, rfl⟩

end Sys2Proof.Machine
end

section
/-! The two decoders on the bytes they consume (41_buffer_decoder.md R112, R120; 42_stream_decoder.md R142, R144, R145). -/

namespace Sys2Proof.Machine

/-! ### DECODE of a slice with the same first bytes -/

/-- An accepted DECODE with LEN of at least 1 has consumed the LEN bytes that the slice begins with
(41_buffer_decoder.md R112). -/
theorem consumed_of_exec_decodeOf {w : Width} {src : Slice} {s t : State} {n : Nat} (ha : s.accepts = true)
    (he : exec (decodeOf w src) s = .next t) (hn : t.len = .holds n) (h1 : 1 ≤ n) :
    ∃ bs, Consumed w bs ∧ SliceHolds s src bs ∧ bs.length = n ∧
      t.value = .holds (wrapVal w (signedValue (wireSign bs) (wireMag bs))) := by
  rcases exec_decodeOf_cases (w := w) src ha with ⟨bs, hc, hs, hx⟩ | ⟨-, -, hx⟩
  · cases hx.symm.trans he
    exact ⟨bs, hc, hs, ResultReg.holds.inj hn, rfl⟩
  · cases hx.symm.trans he
    exact absurd (ResultReg.holds.inj hn) (by omega)

/-- Settles O19: the other slice begins with the consumed bytes too. -/
theorem decodeDependsOnlyOnConsumedBytes : Obligations.DecodeDependsOnlyOnConsumedBytes := by
  intro w src src' s s' t n ha ha' he hn h1 hlen hsame
  obtain ⟨bs, hc, ⟨-, hread⟩, rfl, hv⟩ := consumed_of_exec_decodeOf ha he hn h1
  have hs' : SliceHolds s' src' bs := ⟨hlen, fun k hk => (hsame k hk).trans (hread k hk)⟩
  exact ⟨_, exec_decodeOf_consumed ha' hc hs', hv.symm, hn.symm⟩

/-! ### READ of a source that answers -/

/-- A READ whose source gives `as`, from its acceptance on: if it ends `n` answers after its start, with `P`, then the whole
run ends with `P`, busy until then (42_stream_decoder.md R132, R144). -/
theorem run_readScript {P : State → Prop} {s : State} {w : Width} {k : SourceId} {n : Nat} {as : List Answer}
    (hinv : s.Inv) (ha : s.accepts = true) (hp : (s.source k).pending = as)
    (h : ∀ u, ReadAt u w k [] as (s.source k).pos (List.replicate n .answer) →
      ∃ t, Host.Core.run core n u = .next t ∧ P t ∧
        ∀ j, j < n → ∃ x, Host.Core.run core j u = .next x ∧ x.phase = .readBusy) :
    ∃ t, Host.Core.run core (n + 1) (readScript s w k n) = .next t ∧ P t ∧
      ∀ j, j < n → ∃ x, Host.Core.run core (j + 1) (readScript s w k n) = .next x ∧ x.phase = .readBusy := by
  obtain ⟨u, hstart, hu⟩ := readScript_starts w k n hinv.sourcesWf ha
  rw [hp] at hu
  obtain ⟨t, hrun, ht, hbusy⟩ := h u hu
  refine ⟨t, (run_succ_of_step n hstart).trans hrun, ht, fun j hj => ?_⟩
  rw [run_succ_of_step j hstart]
  exact hbusy j hj

/-- Settles O27: answers that suffice begin in one of three ways, and each brings the READ to its own outcome. -/
theorem readCompletesWithinTheBudget : Obligations.ReadCompletesWithinTheBudget := by
  intro w k s hinv ha hsuff
  rcases answers_shape hsuff with ⟨bs, rest, hp, ht, hl⟩ | ⟨bs, rest, hp, hu, hl⟩ | ⟨bs, rest, hp, hu, hl⟩
  · obtain ⟨t, hrun, hdone, hbusy⟩ := run_readScript hinv ha hp fun _ hr => run_terminated hr ht (by simpa using hl)
    exact ⟨bs.length, t, rest, bs, List.length_pos_iff.2 ht.1, hl, hrun, hbusy, hdone.phase, hdone.resW, hdone.len,
      congrArg Source.pending hdone.source, congrArg Source.pos hdone.source,
      .inl ⟨hdone.status, hdone.value, rfl, ht, hp⟩⟩
  · obtain ⟨t, hrun, hdone, hbusy⟩ := run_readScript hinv ha hp fun _ hr => run_truncated hr hu (by simpa using hl)
    exact ⟨bs.length + 1, t, rest, bs, Nat.succ_pos _, hl, hrun, hbusy, hdone.phase, hdone.resW, hdone.len,
      congrArg Source.pending hdone.source, congrArg Source.pos hdone.source,
      .inr (.inl ⟨hdone.status, hdone.value, rfl, hu, hp⟩)⟩
  · have hpos : 1 ≤ bs.length := Consumed.length_pos (.inr ⟨hu, hl⟩)
    obtain ⟨t, hrun, hdone, hbusy⟩ := run_readScript hinv ha hp fun _ hr =>
      run_overflow hr hu (List.length_pos_iff.1 hpos) (by simpa using hl)
    exact ⟨bs.length, t, rest, bs, hpos, hl.le, hrun, hbusy, hdone.phase, hdone.resW, hdone.len,
      congrArg Source.pending hdone.source, congrArg Source.pos hdone.source,
      .inr (.inr ⟨hdone.status, hdone.value, rfl, hl, hu, hp⟩)⟩

/-- Settles O28: the sequence is within both budgets, and its value is exact at both widths. -/
theorem readVariantsAgree : Obligations.ReadVariantsAgree := by
  intro k s bs as hinv ha ht hl hm hp
  obtain ⟨t, hrunt, ht32⟩ := run_readScript_terminated (w := .w32) hinv.sourcesWf ha ht hl hp
  obtain ⟨u, hrunu, hu64⟩ := run_readScript_terminated (w := .w64) hinv.sourcesWf ha ht (hl.trans (by decide)) hp
  refine ⟨t, u, _, _, hrunt, hrunu, ht32.status, hu64.status, ht32.value, hu64.value, ?_,
    ht32.source.trans hu64.source.symm, congrArg Source.pending ht32.source⟩
  rw [toInt_ofInt32_signedValue _ hm, toInt_ofInt64_signedValue _ (hm.trans (by norm_num))]

/-! ### READ of the bytes a DECODE consumed -/

/-- The bytes a slice begins with are its first bytes. -/
theorem firstBytes_of_holds {s : State} {src : Slice} {bs : List Byte} (h : SliceHolds s src bs) :
    firstBytes s src bs.length = bs := by
  refine List.ext_getElem (by simp [firstBytes]) fun k _ hk => ?_
  simpa [firstBytes, hk] using h.2 k hk

/-- Settles O30: the DECODE consumed a terminated sequence, whose last byte has no more flag, or was capped, with the more
flag in the last byte. -/
theorem bufferAndStreamDecodersAgree : Obligations.BufferAndStreamDecodersAgree := by
  intro w src s t u n k as ha he hn h1 hinv hu hp
  obtain ⟨bs, hc, hs, rfl, hv⟩ := consumed_of_exec_decodeOf ha he hn h1
  have hlast : s.memRead (src.base + (bs.length - 1)) = bs.getD (bs.length - 1) 0 := hs.2 _ (by omega)
  rw [firstBytes_of_holds hs] at hp
  rw [hlast]
  rcases hc with ⟨ht, hl⟩ | ⟨hun, hl⟩
  · have hmore : (bs.getD (bs.length - 1) 0).getLsbD 7 = false :=
      (ht.2 _ (by omega)).trans (decide_eq_false (by omega))
    obtain ⟨x, hrun, hdone⟩ := run_readScript_terminated hinv.sourcesWf hu ht hl hp
    exact ⟨x, hrun, hdone.phase, congrArg Source.pending hdone.source, congrArg Source.pos hdone.source,
      fun _ => ⟨hdone.status, hdone.value.trans hv.symm⟩, fun h => absurd (hmore.symm.trans h) (by decide)⟩
  · have hmore : (bs.getD (bs.length - 1) 0).getLsbD 7 = true := hun _ (by omega)
    obtain ⟨x, hrun, hdone, -⟩ := run_readScript hinv hu hp fun _ hr =>
      run_overflow hr hun (List.length_pos_iff.1 h1) (by simpa using hl)
    exact ⟨x, hrun, hdone.phase, congrArg Source.pending hdone.source, congrArg Source.pos hdone.source,
      fun h => absurd (hmore.symm.trans h) (by decide), fun _ => ⟨hl, hdone.status, hdone.value⟩⟩

end Sys2Proof.Machine
end

section
/-! The mark of a fault of the host's program (93_implementation_defined.md). -/

namespace Sys2Proof.Machine

/-- Serving an answer leaves the mark alone. -/
theorem serveAnswer_hostFault (s : State) : s.serveAnswer.hostFault = s.hostFault := by
  rcases serveAnswer_cases s with he | ⟨a, src, -, he⟩
  · rw [he]
  · obtain ⟨-, -, -, -, -, -, -, hmark⟩ := readStep_frame (s.setSource s.sdSource src) a
    rw [he, hmark, State.setSource_hostFault]

/-- An accepted request leaves the mark alone. -/
theorem RequestEffect.hostFault {s t : State} {r : Request} (he : RequestEffect s r t) : t.hostFault = s.hostFault := by
  cases he with
  | illegalCommand hc => rfl
  | encodeFaults hd hl => rfl
  | encodeCompletes hd hv hl => simp
  | decodeCompletes hd hv hn h0 => rfl
  | readStarts hd => rfl

/-- Only a register read of the host can touch the mark, and it keeps the mark there was. -/
theorem InputEffect.hostFault {s t : State} {i : Input} (he : InputEffect s i t) :
    t.hostFault = s.hostFault ∨ ∃ r, i = .hostRead r ∧ t.hostFault = s.hostFault.or (s.hostReadFault r) := by
  cases he with
  | dropped ha => exact .inl rfl
  | accepted ha he => exact .inl he.hostFault
  | reset => exact .inl rfl
  | answer => exact .inl (serveAnswer_hostFault s)
  | @hostRead r => exact .inr ⟨r, rfl, rfl⟩
  | hostWrite => exact .inl rfl
  | supply => exact .inl rfl
  | agentTakes hp => exact .inl rfl
  | agentFindsNone => exact .inl rfl

/-- What a step makes of the mark. -/
theorem step_hostFault {s t : State} (h : step s = .next t) :
    t.hostFault = s.hostFault ∨
      ∃ r rest, s.inputs = .hostRead r :: rest ∧ t.hostFault = s.hostFault.or (s.hostReadFault r) := by
  rcases step_effect h with rfl | ⟨i, rest, hin, he⟩
  · exact .inl rfl
  · rcases he.hostFault with hsame | ⟨r, rfl, hor⟩
    · exact .inl hsame
    · exact .inr ⟨r, rest, hin, hor⟩

/-- Settles O46: a register read puts its own fault after the mark there was, and no other input touches the mark. -/
theorem hostFaultIsSticky : Obligations.HostFaultIsSticky := by
  intro s t hs
  rcases step_hostFault hs with hsame | ⟨r, rest, hin, hor⟩
  · exact ⟨fun f hf => hsame.trans hf, fun hne => absurd hsame hne⟩
  · cases hmark : s.hostFault with
    | some f =>
      rw [hmark, Option.some_or] at hor
      exact ⟨fun g hg => hor.trans hg, fun hne => absurd hor hne⟩
    | none =>
      rw [hmark, Option.none_or] at hor
      exact ⟨nofun, fun hne => ⟨r, rest, hin, hor, hor ▸ hne⟩⟩

end Sys2Proof.Machine
end
